-- ==== Sys2Proof/Word.lean ====
section
/-! DEFINITION. The bit-vector types of the CORE (spec/00_scope.md R4, §3 Notation) and the index types of
its register file and key set. Everything is unsigned. -/

namespace Sys2Proof

/-- A `u8`: a general register, a timer, a memory byte, a constant `nn`. -/
abbrev Byte := BitVec 8

/-- A `u16`: an instruction word, `pc`, `I`, a stack entry. -/
abbrev Word := BitVec 16

/-- A `u12`: an address field `nnn`. -/
abbrev Addr12 := BitVec 12

/-- A register id, always in `0..15` because it comes from a 4-bit field (10_state.md R7). -/
abbrev RegId := Fin 16

/-- A key id in `0..15` (10_state.md R17). -/
abbrev KeyId := Fin 16

/-- VF, the register that doubles as the flag (10_state.md R8). -/
abbrev vf : RegId := 15

end Sys2Proof
end

