-- ==== Sys2Proof/Syntax.lean ====
section
/-! DEFINITION. The 35 operations of the opcode map, one constructor per row of spec/opcode_table.json
(30_encoding.md R46), with the operands of R44. -/

namespace Sys2Proof

/-- A decoded operation with its typed operands (30_encoding.md R44, R46). -/
inductive Instr where
  /-- `00E0` -/
  | clearScreen
  /-- `00EE` -/
  | ret
  /-- `0nnn`, except `00E0` and `00EE` -/
  | callRCA (nnn : Addr12)
  /-- `1nnn` -/
  | jump (nnn : Addr12)
  /-- `2nnn` -/
  | call (nnn : Addr12)
  /-- `3xnn` -/
  | skipIfEqConst (x : RegId) (nn : Byte)
  /-- `4xnn` -/
  | skipIfNotEqConst (x : RegId) (nn : Byte)
  /-- `5xy0` -/
  | skipIfEqReg (x y : RegId)
  /-- `6xnn` -/
  | setConst (x : RegId) (nn : Byte)
  /-- `7xnn` -/
  | addConst (x : RegId) (nn : Byte)
  /-- `8xy0` -/
  | setReg (x y : RegId)
  /-- `8xy1` -/
  | or (x y : RegId)
  /-- `8xy2` -/
  | and (x y : RegId)
  /-- `8xy3` -/
  | xor (x y : RegId)
  /-- `8xy4` -/
  | addReg (x y : RegId)
  /-- `8xy5` -/
  | sub (x y : RegId)
  /-- `8xy6` -/
  | shr (x y : RegId)
  /-- `8xy7` -/
  | subRev (x y : RegId)
  /-- `8xyE` -/
  | shl (x y : RegId)
  /-- `9xy0` -/
  | skipIfNotEqReg (x y : RegId)
  /-- `Annn` -/
  | setAddr (nnn : Addr12)
  /-- `Bnnn` -/
  | jumpWithOffset (nnn : Addr12)
  /-- `Cxnn` -/
  | getRandom (x : RegId) (nn : Byte)
  /-- `Dxyn`, with `n` the row count -/
  | draw (x y : RegId) (n : Fin 16)
  /-- `Ex9E` -/
  | skipIfKeyPressed (x : RegId)
  /-- `ExA1` -/
  | skipIfKeyNotPressed (x : RegId)
  /-- `Fx07` -/
  | getDelay (x : RegId)
  /-- `Fx0A` -/
  | keyWait (x : RegId)
  /-- `Fx15` -/
  | setDelay (x : RegId)
  /-- `Fx18` -/
  | setSound (x : RegId)
  /-- `Fx1E` -/
  | addAddr (x : RegId)
  /-- `Fx29` -/
  | loadGlyph (x : RegId)
  /-- `Fx33` -/
  | storeBcd (x : RegId)
  /-- `Fx55` -/
  | storeBytes (x : RegId)
  /-- `Fx65` -/
  | loadBytes (x : RegId)
  deriving DecidableEq, Repr

end Sys2Proof
end

