-- ==== Sys2Proof/WellFormed.lean ====
section
/-! DEFINITION. Which terms of `Instr` are operations the decoder can give. The operand types already bound
every field; the one check left is that `CallRCA` is `0nnn` other than `00E0` and `00EE`
(30_encoding.md R46 row 3, R48). -/

namespace Sys2Proof

/-- The check of one instruction term. -/
def Instr.wellFormed : Instr → Bool
  | .callRCA nnn => nnn != 0x0E0 && nnn != 0x0EE
  | .clearScreen | .ret | .jump _ | .call _ => true
  | .skipIfEqConst _ _ | .skipIfNotEqConst _ _ | .skipIfEqReg _ _ | .skipIfNotEqReg _ _ => true
  | .setConst _ _ | .addConst _ _ | .setReg _ _ | .or _ _ | .and _ _ | .xor _ _ => true
  | .addReg _ _ | .sub _ _ | .shr _ _ | .subRev _ _ | .shl _ _ | .getRandom _ _ => true
  | .setAddr _ | .jumpWithOffset _ | .addAddr _ | .loadGlyph _ => true
  | .storeBcd _ | .storeBytes _ | .loadBytes _ | .draw _ _ _ => true
  | .skipIfKeyPressed _ | .skipIfKeyNotPressed _ | .getDelay _ | .keyWait _ => true
  | .setDelay _ | .setSound _ => true

/-- `i` is one of the 35 operations with operands the encoding admits. -/
abbrev Instr.WellFormed (i : Instr) : Prop := i.wellFormed = true

end Sys2Proof
end

