-- ==== Sys2Proof/Decode.lean ====
section
/-! DEFINITION. The decoder, total on every word and every byte list, rejecting by name
(spec/30_encoding.md R41 to R49), and after it the encoder written from the same formats (R43, R46). -/

namespace Sys2Proof

/-- Why bytes give no instruction. -/
inductive DecodeReject where
  /-- `DecodeError(w)`: the word matches no row of the opcode map (30_encoding.md R47). -/
  | decodeError (w : Word)
  /-- Fewer than the two bytes of an instruction word are there (30_encoding.md R41). -/
  | truncated
  deriving DecidableEq, Repr

/-- Bits `lo + width - 1` down to `lo` of `w`, as a number (00_scope.md §3). -/
def field (w : Word) (lo width : Nat) : Nat := w.toNat / 2 ^ lo % 2 ^ width

/-- `o = w[15:12]`, the major opcode (30_encoding.md R42). -/
def fieldO (w : Word) : Nat := field w 12 4

/-- `x = w[11:8]` (30_encoding.md R42). -/
def fieldX (w : Word) : RegId := ⟨field w 8 4, Nat.mod_lt _ (by decide)⟩

/-- `y = w[7:4]` (30_encoding.md R42). -/
def fieldY (w : Word) : RegId := ⟨field w 4 4, Nat.mod_lt _ (by decide)⟩

/-- `n = w[3:0]` (30_encoding.md R42). -/
def fieldN (w : Word) : Fin 16 := ⟨field w 0 4, Nat.mod_lt _ (by decide)⟩

/-- `nn = w[7:0]` (30_encoding.md R42). -/
def fieldNN (w : Word) : Byte := BitVec.ofNat 8 (field w 0 8)

/-- `nnn = w[11:0]` (30_encoding.md R42). -/
def fieldNNN (w : Word) : Addr12 := BitVec.ofNat 12 (field w 0 12)

/-- The 0 family: `00E0` and `00EE` are tested before `0nnn` (30_encoding.md R45). -/
def decode0 (w : Word) : Except DecodeReject Instr :=
  if w = 0x00E0 then .ok .clearScreen
  else if w = 0x00EE then .ok .ret
  else .ok (.callRCA (fieldNNN w))

/-- The 8 family, selected by the low nibble (30_encoding.md R45). -/
def decode8 (w : Word) : Except DecodeReject Instr :=
  match field w 0 4 with
  | 0x0 => .ok (.setReg (fieldX w) (fieldY w))
  | 0x1 => .ok (.or (fieldX w) (fieldY w))
  | 0x2 => .ok (.and (fieldX w) (fieldY w))
  | 0x3 => .ok (.xor (fieldX w) (fieldY w))
  | 0x4 => .ok (.addReg (fieldX w) (fieldY w))
  | 0x5 => .ok (.sub (fieldX w) (fieldY w))
  | 0x6 => .ok (.shr (fieldX w) (fieldY w))
  | 0x7 => .ok (.subRev (fieldX w) (fieldY w))
  | 0xE => .ok (.shl (fieldX w) (fieldY w))
  | _ => .error (.decodeError w)

/-- The E family, selected by the low byte (30_encoding.md R45). -/
def decodeE (w : Word) : Except DecodeReject Instr :=
  match field w 0 8 with
  | 0x9E => .ok (.skipIfKeyPressed (fieldX w))
  | 0xA1 => .ok (.skipIfKeyNotPressed (fieldX w))
  | _ => .error (.decodeError w)

/-- The F family, selected by the low byte: nine codes and no other (30_encoding.md R45, R47;
90_conflicts.md C2). -/
def decodeF (w : Word) : Except DecodeReject Instr :=
  match field w 0 8 with
  | 0x07 => .ok (.getDelay (fieldX w))
  | 0x0A => .ok (.keyWait (fieldX w))
  | 0x15 => .ok (.setDelay (fieldX w))
  | 0x18 => .ok (.setSound (fieldX w))
  | 0x1E => .ok (.addAddr (fieldX w))
  | 0x29 => .ok (.loadGlyph (fieldX w))
  | 0x33 => .ok (.storeBcd (fieldX w))
  | 0x55 => .ok (.storeBytes (fieldX w))
  | 0x65 => .ok (.loadBytes (fieldX w))
  | _ => .error (.decodeError w)

/-- `Decode(w)` (30_encoding.md R45). -/
def decodeWord (w : Word) : Except DecodeReject Instr :=
  match fieldO w with
  | 0x0 => decode0 w
  | 0x1 => .ok (.jump (fieldNNN w))
  | 0x2 => .ok (.call (fieldNNN w))
  | 0x3 => .ok (.skipIfEqConst (fieldX w) (fieldNN w))
  | 0x4 => .ok (.skipIfNotEqConst (fieldX w) (fieldNN w))
  | 0x5 => if field w 0 4 = 0x0 then .ok (.skipIfEqReg (fieldX w) (fieldY w)) else .error (.decodeError w)
  | 0x6 => .ok (.setConst (fieldX w) (fieldNN w))
  | 0x7 => .ok (.addConst (fieldX w) (fieldNN w))
  | 0x8 => decode8 w
  | 0x9 => if field w 0 4 = 0x0 then .ok (.skipIfNotEqReg (fieldX w) (fieldY w)) else .error (.decodeError w)
  | 0xA => .ok (.setAddr (fieldNNN w))
  | 0xB => .ok (.jumpWithOffset (fieldNNN w))
  | 0xC => .ok (.getRandom (fieldX w) (fieldNN w))
  | 0xD => .ok (.draw (fieldX w) (fieldY w) (fieldN w))
  | 0xE => decodeE w
  | 0xF => decodeF w
  | _ => .error (.decodeError w)

/-- `{hi, lo}`: the big-endian word of two bytes (00_scope.md §3, 20_memory.md R30). -/
def wordOfBytes (hi lo : Byte) : Word := BitVec.ofNat 16 (hi.toNat * 256 + lo.toNat)

/-- The byte of a word that lies at the lower address. -/
def wordHi (w : Word) : Byte := BitVec.ofNat 8 (w.toNat / 256)

/-- The byte of a word that lies at the higher address. -/
def wordLo (w : Word) : Byte := BitVec.ofNat 8 w.toNat

/-- The decoder on bytes: an instruction is exactly two bytes, the high one first (30_encoding.md R41). -/
def decodeBytes : List Byte → Except DecodeReject (Instr × List Byte)
  | hi :: lo :: rest =>
    match decodeWord (wordOfBytes hi lo) with
    | .ok i => .ok (i, rest)
    | .error e => .error e
  | _ => .error .truncated

/-! ### The encoder -/

/-- A word from its four nibbles `{o, x, y, n}` (30_encoding.md R43). -/
def packXYN (o x y n : Nat) : Word := BitVec.ofNat 16 (o * 0x1000 + x * 0x100 + y * 0x10 + n)

/-- Format A: `{o, nnn}` (30_encoding.md R43). -/
def packA (o : Nat) (nnn : Addr12) : Word := BitVec.ofNat 16 (o * 0x1000 + nnn.toNat)

/-- Formats XK and XS: `{o, x, nn}` (30_encoding.md R43). -/
def packXK (o : Nat) (x : RegId) (nn : Byte) : Word := BitVec.ofNat 16 (o * 0x1000 + x.val * 0x100 + nn.toNat)

/-- The word of an instruction, from the match and mask columns of 30_encoding.md R46. -/
def encode : Instr → Word
  | .clearScreen => 0x00E0
  | .ret => 0x00EE
  | .callRCA nnn => packA 0x0 nnn
  | .jump nnn => packA 0x1 nnn
  | .call nnn => packA 0x2 nnn
  | .skipIfEqConst x nn => packXK 0x3 x nn
  | .skipIfNotEqConst x nn => packXK 0x4 x nn
  | .skipIfEqReg x y => packXYN 0x5 x.val y.val 0x0
  | .setConst x nn => packXK 0x6 x nn
  | .addConst x nn => packXK 0x7 x nn
  | .setReg x y => packXYN 0x8 x.val y.val 0x0
  | .or x y => packXYN 0x8 x.val y.val 0x1
  | .and x y => packXYN 0x8 x.val y.val 0x2
  | .xor x y => packXYN 0x8 x.val y.val 0x3
  | .addReg x y => packXYN 0x8 x.val y.val 0x4
  | .sub x y => packXYN 0x8 x.val y.val 0x5
  | .shr x y => packXYN 0x8 x.val y.val 0x6
  | .subRev x y => packXYN 0x8 x.val y.val 0x7
  | .shl x y => packXYN 0x8 x.val y.val 0xE
  | .skipIfNotEqReg x y => packXYN 0x9 x.val y.val 0x0
  | .setAddr nnn => packA 0xA nnn
  | .jumpWithOffset nnn => packA 0xB nnn
  | .getRandom x nn => packXK 0xC x nn
  | .draw x y n => packXYN 0xD x.val y.val n.val
  | .skipIfKeyPressed x => packXK 0xE x 0x9E
  | .skipIfKeyNotPressed x => packXK 0xE x 0xA1
  | .getDelay x => packXK 0xF x 0x07
  | .keyWait x => packXK 0xF x 0x0A
  | .setDelay x => packXK 0xF x 0x15
  | .setSound x => packXK 0xF x 0x18
  | .addAddr x => packXK 0xF x 0x1E
  | .loadGlyph x => packXK 0xF x 0x29
  | .storeBcd x => packXK 0xF x 0x33
  | .storeBytes x => packXK 0xF x 0x55
  | .loadBytes x => packXK 0xF x 0x65

/-- The two bytes of an instruction, as they lie in memory (30_encoding.md R41). -/
def encodeBytes (i : Instr) : List Byte := [wordHi (encode i), wordLo (encode i)]

/-! ### The opcode map as data -/

/-- One row of the opcode map: a word `w` fits it when `w AND mask = match` (30_encoding.md R46). -/
structure OpRow where
  pattern : Word
  mask    : Word
  deriving DecidableEq, Repr

/-- The row of an instruction: the match and mask columns of 30_encoding.md R46. -/
def Instr.row : Instr → OpRow
  | .clearScreen => ⟨0x00E0, 0xFFFF⟩
  | .ret => ⟨0x00EE, 0xFFFF⟩
  | .callRCA _ => ⟨0x0000, 0xF000⟩
  | .jump _ => ⟨0x1000, 0xF000⟩
  | .call _ => ⟨0x2000, 0xF000⟩
  | .skipIfEqConst _ _ => ⟨0x3000, 0xF000⟩
  | .skipIfNotEqConst _ _ => ⟨0x4000, 0xF000⟩
  | .skipIfEqReg _ _ => ⟨0x5000, 0xF00F⟩
  | .setConst _ _ => ⟨0x6000, 0xF000⟩
  | .addConst _ _ => ⟨0x7000, 0xF000⟩
  | .setReg _ _ => ⟨0x8000, 0xF00F⟩
  | .or _ _ => ⟨0x8001, 0xF00F⟩
  | .and _ _ => ⟨0x8002, 0xF00F⟩
  | .xor _ _ => ⟨0x8003, 0xF00F⟩
  | .addReg _ _ => ⟨0x8004, 0xF00F⟩
  | .sub _ _ => ⟨0x8005, 0xF00F⟩
  | .shr _ _ => ⟨0x8006, 0xF00F⟩
  | .subRev _ _ => ⟨0x8007, 0xF00F⟩
  | .shl _ _ => ⟨0x800E, 0xF00F⟩
  | .skipIfNotEqReg _ _ => ⟨0x9000, 0xF00F⟩
  | .setAddr _ => ⟨0xA000, 0xF000⟩
  | .jumpWithOffset _ => ⟨0xB000, 0xF000⟩
  | .getRandom _ _ => ⟨0xC000, 0xF000⟩
  | .draw _ _ _ => ⟨0xD000, 0xF000⟩
  | .skipIfKeyPressed _ => ⟨0xE09E, 0xF0FF⟩
  | .skipIfKeyNotPressed _ => ⟨0xE0A1, 0xF0FF⟩
  | .getDelay _ => ⟨0xF007, 0xF0FF⟩
  | .keyWait _ => ⟨0xF00A, 0xF0FF⟩
  | .setDelay _ => ⟨0xF015, 0xF0FF⟩
  | .setSound _ => ⟨0xF018, 0xF0FF⟩
  | .addAddr _ => ⟨0xF01E, 0xF0FF⟩
  | .loadGlyph _ => ⟨0xF029, 0xF0FF⟩
  | .storeBcd _ => ⟨0xF033, 0xF0FF⟩
  | .storeBytes _ => ⟨0xF055, 0xF0FF⟩
  | .loadBytes _ => ⟨0xF065, 0xF0FF⟩

/-- What the decoder reads from an instruction whose table bits are `w` (the bits above `nbits` are 0): the
word is laid out as the hardware stores it, high byte first, and given to `decodeBytes`. -/
def decodeTableWord (nbits w : Nat) : Option Instr :=
  let word : Word := BitVec.ofNat 16 (w % 2 ^ nbits)
  match decodeBytes [wordHi word, wordLo word] with
  | .ok (i, _) => some i
  | .error _ => none

end Sys2Proof
end

