-- ==== Sys2Proof/Config.lean ====
section
/-! DEFINITION. What is fixed for one machine: the fixed parameters of spec/00_scope.md R4, the open
parameters of R5 and the free values. A free value is an opaque constant: nothing can be proved of what it
is, so a claim about it holds for every value. -/

namespace Sys2Proof.Config

/-- End of the glyph ROM region `[0x000, 0x1A0)` (20_memory.md R25). -/
abbrev romEnd : Nat := 0x1A0

/-- Start of the RAM region `[0x200, 0xEA0)` (20_memory.md R25). -/
abbrev ramBase : Nat := 0x200

/-- End of the RAM region (20_memory.md R25). -/
abbrev ramEnd : Nat := 0xEA0

/-- Bytes of RAM (00_scope.md R4). -/
abbrev ramSize : Nat := 3232

/-- Start of the framebuffer region `[0xF00, 0x1000)` (20_memory.md R25). -/
abbrev fbBase : Nat := 0xF00

/-- Bytes of the framebuffer (10_state.md R15). -/
abbrev fbSize : Nat := 256

/-- Size of the address space (20_memory.md R24). -/
abbrev memSize : Nat := 0x1000

/-- `GLYPH_BASE`, fixed at the base of the ROM (92_eei_decisions.md D8; log 13). -/
abbrev glyphBase : Nat := 0x000

/-- 16 glyphs of 5 bytes (00_scope.md R4). -/
abbrev glyphTableSize : Nat := 80

/-- `STACK_DEPTH` (00_scope.md R4). -/
abbrev stackDepth : Nat := 16

/-- The value of `pc` at construction (10_state.md R22). -/
abbrev resetPc : Word := 0x200

/-- FREE VALUE. `GLYPH_TABLE[k]` for `k` in `0..79`, never given by the source (92_eei_decisions.md D9; log 3). -/
opaque glyphTable : Nat → Byte

/-- FREE VALUE. The `k`-th random byte drawn, any of the 256 values (10_state.md R18; log 4). -/
opaque rnd : Nat → Byte

/-- FREE VALUE. An arbitrary datum of any type, depending on anything: what the spec leaves unspecified
(60_exceptions.md R101; log 6). -/
opaque unspecified {α β : Type} [Inhabited β] (x : α) : β

/-- The construction values that no source fixes, the arguments `INIT_*` of 00_scope.md R5. -/
structure Init where
  /-- `INIT_V` -/
  v     : RegId → Byte
  /-- `INIT_I`, a 12-bit value -/
  i     : Addr12
  /-- `INIT_DT` -/
  dt    : Byte
  /-- `INIT_ST` -/
  st    : Byte
  /-- `INIT_RAM` -/
  ram   : Fin ramSize → Byte
  /-- `INIT_FB` -/
  fb    : Fin fbSize → Byte
  /-- `INIT_DIRTY` -/
  dirty : Bool

/-- The construction values `State.reset` takes: zero throughout. DESIGN CHOICE, unsafe (log 1, log 2). -/
def Init.zero : Init where
  v := fun _ => 0
  i := 0
  dt := 0
  st := 0
  ram := fun _ => 0
  fb := fun _ => 0
  dirty := false

end Sys2Proof.Config
end

