-- ==== Sys2Proof/Machine/Memory.lean ====
section
/-! DEFINITION. The byte store behind RAM and the framebuffer (spec/10_state.md R15, R19): a list of
(address, byte) cells in one canonical form. Regions, permissions and faults are in Ops.lean. -/

namespace Sys2Proof.Machine

/-- The stored bytes that differ from what an unlisted address reads as. -/
abbrev Memory := List Host.Cell

/-- What an unlisted address of RAM or of the framebuffer reads as.
DESIGN CHOICE, unsafe: the spec leaves `INIT_RAM` and `INIT_FB` unspecified (log 2). -/
def Memory.unlisted : Byte := 0

/-- The byte stored at address `a`. -/
def Memory.get : Memory → Nat → Byte
  | [], _ => Memory.unlisted
  | (b, u) :: rest, a => if b = a then u else Memory.get rest a

/-- Insert a cell before the first cell of a higher address. -/
def Memory.insert : Memory → Host.Cell → Memory
  | [], c => [c]
  | d :: rest, c => if c.1 < d.1 then c :: d :: rest else d :: Memory.insert rest c

/-- Store byte `u` at address `a`, keeping the canonical form: storing what an unlisted address reads as
removes the entry. -/
def Memory.set (m : Memory) (a : Nat) (u : Byte) : Memory :=
  let others : Memory := m.filter (fun c => c.1 != a)
  if u = Memory.unlisted then others else Memory.insert others (a, u)

/-- Store bytes at consecutive addresses, the first at `a`. -/
def Memory.setMany : Memory → Nat → List Byte → Memory
  | m, _, [] => m
  | m, a, u :: us => Memory.setMany (Memory.set m a u) (a + 1) us

/-- The stored bytes at construction: `INIT_RAM` and `INIT_FB` (10_state.md R22). -/
@[irreducible] def initialMemory (p : Config.Init) : Memory :=
  Memory.setMany (Memory.setMany [] Config.ramBase (List.ofFn p.ram)) Config.fbBase (List.ofFn p.fb)

/-- Every address of a cell list exceeds `lo`, and the addresses rise strictly. -/
def Memory.rising : Nat → Memory → Bool
  | _, [] => true
  | lo, (a, _) :: rest => decide (lo < a) && Memory.rising a rest

/-- The canonical form: addresses strictly rising, and no entry equal to what an unlisted address reads as. -/
def Memory.wf (m : Memory) : Bool :=
  (match m with
    | [] => true
    | (a, _) :: rest => Memory.rising a rest) &&
  m.all (fun c => c.2 != Memory.unlisted)

/-- Address `a` has storage: it is in RAM or in the framebuffer region (10_state.md R19). -/
def stored (a : Nat) : Bool :=
  (decide (Config.ramBase ≤ a) && decide (a < Config.ramEnd)) ||
  (decide (Config.fbBase ≤ a) && decide (a < Config.memSize))

/-- Every cell lies at an address that has storage. -/
def Memory.inStorage (m : Memory) : Bool := m.all (fun c => stored c.1)

end Sys2Proof.Machine
end

