-- ==== Sys2Proof/Machine/State.lean ====
section
/-! DEFINITION. The whole state of the CORE as plain data (spec/10_state.md R6 to R23), the faults with
their records (60_exceptions.md R98, R99), the refusals, and construction, the only reset (R22, R121). -/

namespace Sys2Proof.Machine

/-- The fatal faults (60_exceptions.md R98). Each carries the record of R99: `a`, the address of the
instruction being fetched or executed; `w`, its word, or `none` for a fault in the fetch; and its datum.
All are safe: the machine stops where the spec says the block stops. -/
inductive Fault where
  /-- Code 1. Raised by `step` after the fetch, when the word matches no row of the opcode map
  (30_encoding.md R47). Datum: the word. Safe. -/
  | decodeError (a : Word) (w : Word)
  /-- Code 2. Raised by Call with 16 entries on the stack (40_control.md R56). No datum. Safe. -/
  | stackOverflow (a : Word) (w : Word)
  /-- Code 3. Raised by Return with an empty stack (40_control.md R53). No datum. Safe. -/
  | stackUnderflow (a : Word) (w : Word)
  /-- Code 4. Raised by the fetch, Draw, StoreBcd, StoreBytes and LoadBytes on an access at an address
  from 0x1000 on (20_memory.md R25). Datum: the address. Safe. -/
  | addressOutOfRange (a : Word) (w : Option Word) (address : Nat)
  /-- Code 5. Raised by the fetch, Draw, StoreBcd, StoreBytes and LoadBytes on an access in a reserved
  range (20_memory.md R25). Datum: the address. Safe. -/
  | reservedRegionAccess (a : Word) (w : Option Word) (address : Nat)
  /-- Code 6. Raised by LoadGlyph on a value above 15 (42_address.md R80). Datum: the value. Safe. -/
  | invalidGlyphIndex (a : Word) (w : Word) (value : Byte)
  /-- Code 7. Raised by StoreBcd and StoreBytes on a write in the glyph ROM (20_memory.md R28).
  Datum: the address. Safe. -/
  | readOnlyWrite (a : Word) (w : Option Word) (address : Nat)
  /-- Code 8. Raised by CallRCA, always (40_control.md R54). Datum: the word. Safe. -/
  | unsupported (a : Word) (w : Word)
  /-- Code 9. Raised by SkipIfKeyPressed and SkipIfKeyNotPressed on a value above 15
  (44_input_timer.md R91, R92). Datum: the value. Safe. -/
  | invalidKeyIndex (a : Word) (w : Word) (value : Byte)
  deriving DecidableEq, Repr

/-- Why a step has no outcome of its own. -/
inductive Refusal where
  /-- The instruction of this mnemonic has no meaning in the model. Raised by `exec`'s unfinished arms
  only; safe. -/
  | notModelled (mnemonic : String)
  /-- The block is faulted: `step()` is refused, with no effect and no result (60_exceptions.md R100).
  Raised by `step`; safe. -/
  | terminated (record : Fault)
  deriving DecidableEq, Repr

/-- The fault status (10_state.md R20). -/
inductive Status where
  | running
  | faulted (record : Fault)
  deriving DecidableEq, Repr

/-- The block's state (10_state.md R6). -/
structure State where
  /-- `V[0]`..`V[15]` (R7, R8) -/
  v       : Vector Byte 16
  /-- `I`, 16 bits of storage (R9) -/
  i       : Word
  /-- `pc` (R10) -/
  pc      : Word
  /-- The call stack, most recent return address first (R13) -/
  stack   : List Word
  /-- `DT`, the delay timer (R14) -/
  dt      : Byte
  /-- `ST`, the sound timer (R14) -/
  st      : Byte
  /-- RAM and the framebuffer: `FB[k]` is the byte at `0xF00 + k` (R15, R19; log 10) -/
  mem     : Memory
  /-- The dirty flag (R16) -/
  dirty   : Bool
  /-- `pressed[0..15]` (R17) -/
  pressed : Vector Bool 16
  /-- `latch` (R17) -/
  latch   : Option KeyId
  /-- `status` (R20) -/
  status  : Status
  /-- The MODEL's own field: how many random bytes were drawn. It only indexes `Config.rnd` (log 4) -/
  draws   : Nat
  deriving DecidableEq, Repr

/-- Construction with the open parameters `p` (10_state.md R22, 70_reset_and_hazards.md R121). -/
def State.construct (p : Config.Init) : State where
  v := Vector.ofFn p.v
  i := p.i.setWidth 16
  pc := Config.resetPc
  stack := []
  dt := p.dt
  st := p.st
  mem := initialMemory p
  dirty := p.dirty
  pressed := Vector.replicate 16 false
  latch := none
  status := .running
  draws := 0

/-- The machine right after reset: construction with every open parameter zero.
The zeros are a DESIGN CHOICE, unsafe (log 1, log 2, log 4); `reset_eq_construct` ties it to `construct`. -/
def State.reset : State where
  v := Vector.replicate 16 0
  i := 0
  pc := Config.resetPc
  stack := []
  dt := 0
  st := 0
  mem := []
  dirty := false
  pressed := Vector.replicate 16 false
  latch := none
  status := .running
  draws := 0

end Sys2Proof.Machine
end

