-- ==== Sys2Proof/Machine/Ops.lean ====
section
/-! DEFINITION. The named operations over the state: one update per field, register access, the address
decoder with its reads and writes (spec/20_memory.md R25 to R30), the fetch, the call stack, the input
latch, the random draw, and taking a fault (60_exceptions.md R97 to R101). There is no return from a fault:
a fault is terminal and the block has no trap mechanism (R100, R104). -/

namespace Sys2Proof.Machine

/-- What an instruction or a step answers. -/
abbrev Result := Host.Outcome State Fault Refusal

/-! ### One update per field -/

def State.withV (s : State) (v : Vector Byte 16) : State := { s with v := v }
def State.withI (s : State) (i : Word) : State := { s with i := i }
def State.withPc (s : State) (pc : Word) : State := { s with pc := pc }
def State.withStack (s : State) (stack : List Word) : State := { s with stack := stack }
def State.withDt (s : State) (dt : Byte) : State := { s with dt := dt }
def State.withSt (s : State) (st : Byte) : State := { s with st := st }
def State.withMem (s : State) (mem : Memory) : State := { s with mem := mem }
def State.withDirty (s : State) (dirty : Bool) : State := { s with dirty := dirty }
def State.withPressed (s : State) (pressed : Vector Bool 16) : State := { s with pressed := pressed }
def State.withLatch (s : State) (latch : Option KeyId) : State := { s with latch := latch }
def State.withStatus (s : State) (status : Status) : State := { s with status := status }
def State.withDraws (s : State) (draws : Nat) : State := { s with draws := draws }

/-! ### General registers -/

/-- `V[x]` (10_state.md R7). -/
def State.reg (s : State) (x : RegId) : Byte := s.v[x.val]

/-- `V[x] <- b` (10_state.md R7). -/
def State.setReg (s : State) (x : RegId) (b : Byte) : State := s.withV (s.v.set x.val b x.isLt)

/-- `V[i] <- b` for consecutive registers from `i` on; a register above 15 does not exist and the callers
name none (42_address.md R83). -/
def State.setRegs : State → Nat → List Byte → State
  | s, _, [] => s
  | s, i, b :: bs => if h : i < 16 then State.setRegs (s.setReg ⟨i, h⟩ b) (i + 1) bs else s

/-- `V[0]`..`V[x]`, in order (42_address.md R82). -/
def State.regsUpTo (s : State) (x : RegId) : List Byte := s.v.toList.take (x.val + 1)

/-! ### Faults -/

/-- The kinds of 60_exceptions.md R98. -/
inductive FaultKind where
  | decodeError | stackOverflow | stackUnderflow | addressOutOfRange | reservedRegionAccess
  | invalidGlyphIndex | readOnlyWrite | unsupported | invalidKeyIndex
  deriving DecidableEq, Repr

/-- The kind of a fault (60_exceptions.md R98). -/
def faultKind : Fault → FaultKind
  | .decodeError _ _ => .decodeError
  | .stackOverflow _ _ => .stackOverflow
  | .stackUnderflow _ _ => .stackUnderflow
  | .addressOutOfRange _ _ _ => .addressOutOfRange
  | .reservedRegionAccess _ _ _ => .reservedRegionAccess
  | .invalidGlyphIndex _ _ _ => .invalidGlyphIndex
  | .readOnlyWrite _ _ _ => .readOnlyWrite
  | .unsupported _ _ => .unsupported
  | .invalidKeyIndex _ _ _ => .invalidKeyIndex

/-- The numeric code of a kind (60_exceptions.md R98). -/
def faultCode : FaultKind → Nat
  | .decodeError => 1
  | .stackOverflow => 2
  | .stackUnderflow => 3
  | .addressOutOfRange => 4
  | .reservedRegionAccess => 5
  | .invalidGlyphIndex => 6
  | .readOnlyWrite => 7
  | .unsupported => 8
  | .invalidKeyIndex => 9

/-- The record `(code, kind, a, w, datum)` of a fault (60_exceptions.md R99). -/
structure FaultRecord where
  code  : Nat
  kind  : FaultKind
  a     : Word
  w     : Option Word
  datum : Option Nat
  deriving DecidableEq, Repr

/-- The address of the faulting instruction (60_exceptions.md R99). -/
def faultAddress : Fault → Word
  | .decodeError a _ | .stackOverflow a _ | .stackUnderflow a _ | .addressOutOfRange a _ _
  | .reservedRegionAccess a _ _ | .invalidGlyphIndex a _ _ | .readOnlyWrite a _ _
  | .unsupported a _ | .invalidKeyIndex a _ _ => a

/-- The word of the faulting instruction, `none` for a fault in the fetch (60_exceptions.md R99). -/
def faultWord : Fault → Option Word
  | .decodeError _ w | .stackOverflow _ w | .stackUnderflow _ w | .invalidGlyphIndex _ w _
  | .unsupported _ w | .invalidKeyIndex _ w _ => some w
  | .addressOutOfRange _ w _ | .reservedRegionAccess _ w _ | .readOnlyWrite _ w _ => w

/-- The datum of a fault (60_exceptions.md R98). -/
def faultDatum : Fault → Option Nat
  | .decodeError _ w | .unsupported _ w => some w.toNat
  | .stackOverflow _ _ | .stackUnderflow _ _ => none
  | .addressOutOfRange _ _ address | .reservedRegionAccess _ _ address | .readOnlyWrite _ _ address => some address
  | .invalidGlyphIndex _ _ value | .invalidKeyIndex _ _ value => some value.toNat

/-- The whole record of a fault (60_exceptions.md R99). -/
def faultRecord (f : Fault) : FaultRecord where
  code := faultCode (faultKind f)
  kind := faultKind f
  a := faultAddress f
  w := faultWord f
  datum := faultDatum f

/-- TAKING A FAULT, the one shared operation: `status <- faulted(...)` (60_exceptions.md R97). What the
faulting step leaves apart from `status` and the record is unspecified (R101): every other field is a free
value (log 6). -/
def State.takeFault (s : State) (f : Fault) : State :=
  (@Config.unspecified (State × Fault) State ⟨State.reset⟩ (s, f)).withStatus (.faulted f)

/-- The address of the instruction that executes: `pc` already holds it plus 2 (40_control.md R52). -/
def State.here (s : State) : Word := s.pc - 2

/-! ### The address decoder -/

/-- What an address resolves to (20_memory.md R25). -/
inductive Location where
  | rom (a : Nat)
  | reserved
  | ram (a : Nat)
  | fb (k : Nat)
  | outOfRange
  deriving DecidableEq, Repr

/-- `Resolve(a)` (20_memory.md R25). -/
def resolve (a : Nat) : Location :=
  if a < Config.romEnd then .rom a
  else if a < Config.ramBase then .reserved
  else if a < Config.ramEnd then .ram a
  else if a < Config.fbBase then .reserved
  else if a < Config.memSize then .fb (a - Config.fbBase)
  else .outOfRange

/-- The faults of the address decoder (20_memory.md R25). -/
inductive AccessFault where
  | addressOutOfRange (address : Nat)
  | reservedRegionAccess (address : Nat)
  | readOnlyWrite (address : Nat)
  deriving DecidableEq, Repr

/-- The fault of an access, with the record of the instruction at `a` with word `w` (60_exceptions.md R99). -/
def AccessFault.toFault (a : Word) (w : Option Word) : AccessFault → Fault
  | .addressOutOfRange address => .addressOutOfRange a w address
  | .reservedRegionAccess address => .reservedRegionAccess a w address
  | .readOnlyWrite address => .readOnlyWrite a w address

/-- `RomByte(a)`: the glyph table, then 0 (20_memory.md R27). -/
def romByte (a : Nat) : Byte :=
  if Config.glyphBase ≤ a ∧ a < Config.glyphBase + Config.glyphTableSize then
    Config.glyphTable (a - Config.glyphBase)
  else 0

/-- `MemRead(a, 1)` (20_memory.md R26). -/
def memRead (s : State) (a : Nat) : Except AccessFault Byte :=
  match resolve a with
  | .rom b => .ok (romByte b)
  | .ram b => .ok (s.mem.get b)
  | .fb k => .ok (s.mem.get (Config.fbBase + k))
  | .reserved => .error (.reservedRegionAccess a)
  | .outOfRange => .error (.addressOutOfRange a)

/-- `MemWrite(a, 1, u)`; a write to the framebuffer region sets `dirty` (20_memory.md R28, R29). -/
def memWrite (s : State) (a : Nat) (u : Byte) : Except AccessFault State :=
  match resolve a with
  | .rom _ => .error (.readOnlyWrite a)
  | .ram b => .ok (s.withMem (s.mem.set b u))
  | .fb k => .ok ((s.withMem (s.mem.set (Config.fbBase + k) u)).withDirty true)
  | .reserved => .error (.reservedRegionAccess a)
  | .outOfRange => .error (.addressOutOfRange a)

/-- Byte reads at `a`, `a + 1`, ..., in ascending order; the first that fails decides (20_memory.md R34,
60_exceptions.md R102). Addresses are not wrapped (20_memory.md R33). -/
def memReadMany (s : State) : Nat → Nat → Except AccessFault (List Byte)
  | _, 0 => .ok []
  | a, n + 1 =>
    match memRead s a with
    | .error e => .error e
    | .ok u =>
      match memReadMany s (a + 1) n with
      | .error e => .error e
      | .ok us => .ok (u :: us)

/-- Byte writes at `a`, `a + 1`, ..., in ascending order; the first that fails decides (20_memory.md R34,
60_exceptions.md R102). -/
def memWriteMany : State → Nat → List Byte → Except AccessFault State
  | s, _, [] => .ok s
  | s, a, u :: us =>
    match memWrite s a u with
    | .error e => .error e
    | .ok t => memWriteMany t (a + 1) us

/-- `MemReadWord(a)`: big-endian, the byte at `a` first, no wrap (20_memory.md R30). -/
def memReadWord (s : State) (a : Nat) : Except AccessFault Word :=
  match memRead s a with
  | .error e => .error e
  | .ok hi =>
    match memRead s (a + 1) with
    | .error e => .error e
    | .ok lo => .ok (wordOfBytes hi lo)

/-- The fetch of a step; a fault in it records no word (40_control.md R51, 60_exceptions.md R99). -/
def fetch (s : State) : Except Fault Word :=
  match memReadWord s s.pc.toNat with
  | .error e => .error (e.toFault s.pc none)
  | .ok w => .ok w

/-- `pc <- trunc_16(pc + 2)`: the fetch advance, and what a satisfied skip adds (10_state.md R11,
40_control.md R51, R62). -/
def State.advance (s : State) : State := s.withPc (s.pc + 2)

/-- `pc <- trunc_16(pc - 2)`: the rewind of KeyWait (44_input_timer.md R94). -/
def State.rewind (s : State) : State := s.withPc (s.pc - 2)

/-- A skip: 2 more on `pc` when its condition holds, and nothing else (40_control.md R62). -/
def State.skipIf (s : State) (c : Bool) : State := if c then s.advance else s

/-! ### Call stack -/

/-- `depth` (10_state.md R13). -/
def State.depth (s : State) : Nat := s.stack.length

/-- `push(w)` (10_state.md R13); the caller checks the depth first. -/
def State.push (s : State) (w : Word) : State := s.withStack (w :: s.stack)

/-! ### Input latch, random source -/

/-- `Pressed(k)` (60_exceptions.md R112). -/
def State.isPressed (s : State) (k : KeyId) : Bool := s.pressed[k.val]

/-- `pressed[k] <- b` (60_exceptions.md R109, R110). -/
def State.setPressed (s : State) (k : KeyId) (b : Bool) : State :=
  s.withPressed (s.pressed.set k.val b k.isLt)

/-- `GetKey()`: the latch before, and the state with the latch cleared (60_exceptions.md R111). -/
def State.getKey (s : State) : Option KeyId × State := (s.latch, s.withLatch none)

/-- One random byte, and the state in which it is drawn (10_state.md R18; log 4). -/
def State.draw (s : State) : Byte × State := (Config.rnd s.draws, s.withDraws (s.draws + 1))

end Sys2Proof.Machine
end

