-- ==== Sys2Proof/Machine/Operands.lean ====
section
/-! DEFINITION. The operand forms (spec/30_encoding.md R44): registers, constants and addresses, all
unsigned, none sign-extended, scaled or shifted; and the memory operand `I + i` (20_memory.md R33). -/

namespace Sys2Proof.Machine

/-- `Reg(y)`: the register operand `V[y]` (30_encoding.md R44). -/
def regOperand (s : State) (y : RegId) : Byte := s.reg y

/-- `Const(nn)`: the constant, used as a `u8` (30_encoding.md R44). -/
def constOperand (nn : Byte) : Byte := nn

/-- An address `nnn`, used as `zext_16(nnn)` (30_encoding.md R44). -/
def addrOperand (nnn : Addr12) : Word := nnn.setWidth 16

/-- The first address of a memory operand: the value of `I`, an unbounded natural from here on
(20_memory.md R33). -/
def memOperand (s : State) : Nat := s.i.toNat

/-- The value of `V[x]` as the index of one of 16 things, if it is at most 15 (42_address.md R80,
44_input_timer.md R91). -/
def index16 (b : Byte) : Option (Fin 16) := if h : b.toNat < 16 then some ⟨b.toNat, h⟩ else none

end Sys2Proof.Machine
end

