-- ==== Sys2Proof/Machine/Flags.lean ====
section
/-! DEFINITION. The flag and result of every operation that writes VF (spec/10_state.md R8), and the one
order in which both are written (41_alu.md R64). -/

namespace Sys2Proof.Machine

/-- A flag value: 1 or 0. -/
def flag (c : Bool) : Byte := if c then 1 else 0

/-- VF first, then `V[x]`: with `x = 15` the result stays (41_alu.md R64; log 12). -/
def State.setFlagged (s : State) (x : RegId) (f result : Byte) : State := (s.setReg vf f).setReg x result

/-- `trunc_8(a + b)` (41_alu.md R67, R72). -/
def addResult (a b : Byte) : Byte := BitVec.ofNat 8 (a.toNat + b.toNat)

/-- Carry: 1 when the sum exceeds 255 (41_alu.md R72). -/
def addFlag (a b : Byte) : Byte := flag (decide (a.toNat + b.toNat > 0xFF))

/-- `trunc_8(a + 0x100 - b)` (41_alu.md R65, R73). -/
def subResult (a b : Byte) : Byte := BitVec.ofNat 8 (a.toNat + 0x100 - b.toNat)

/-- Not-borrow: 0 when `a < b` (41_alu.md R65, R73). -/
def subFlag (a b : Byte) : Byte := flag (!decide (a.toNat < b.toNat))

/-- `b >> 1` (41_alu.md R74). -/
def shrResult (b : Byte) : Byte := b >>> 1

/-- Bit 0 before the shift (41_alu.md R74). -/
def shrFlag (b : Byte) : Byte := b &&& 0x01

/-- `trunc_8(b << 1)` (41_alu.md R76). -/
def shlResult (b : Byte) : Byte := b <<< 1

/-- Bit 7 before the shift (41_alu.md R76). -/
def shlFlag (b : Byte) : Byte := b >>> 7

/-- The sum of `I` and a register, widened to 17 bits (42_address.md R79). -/
def addrSum (i : Word) (b : Byte) : Nat := i.toNat + b.toNat

/-- Overflow past `0xFFF` (42_address.md R79). -/
def addrFlag (i : Word) (b : Byte) : Byte := flag (decide (addrSum i b > 0xFFF))

/-- The sum modulo `0x1000` (42_address.md R79). -/
def addrResult (i : Word) (b : Byte) : Word := BitVec.ofNat 16 (addrSum i b % 0x1000)

/-- The collision result of a draw (43_display.md R87). -/
def collisionFlag (hit : Bool) : Byte := flag hit

end Sys2Proof.Machine
end

