-- ==== Sys2Proof/Machine/Address.lean ====
section
/-! DEFINITION. The instructions that set `I` and those that move bytes between registers and memory at `I`
(spec/42_address.md R78 to R83). `StoreBytes`, `LoadBytes` and `StoreBcd` leave `I` unchanged. -/

namespace Sys2Proof.Machine

/-- SetAddr (R78). -/
def execSetAddr (nnn : Addr12) (s : State) : Result := .next (s.withI (addrOperand nnn))

/-- AddAddr: VF and then `I`, from the values before (R79). -/
def execAddAddr (x : RegId) (s : State) : Result :=
  .next ((s.setReg vf (addrFlag s.i (s.reg x))).withI (addrResult s.i (s.reg x)))

/-- LoadGlyph (R80). -/
def execLoadGlyph (x : RegId) (s : State) : Result :=
  match index16 (s.reg x) with
  | none => .fault (.invalidGlyphIndex s.here (encode (.loadGlyph x)) (s.reg x))
  | some d => .next (s.withI (BitVec.ofNat 16 (Config.glyphBase + 5 * d.val)))

/-- The three decimal digits of a byte, hundreds first (R81). -/
def bcdDigits (b : Byte) : List Byte :=
  [BitVec.ofNat 8 (b.toNat / 100), BitVec.ofNat 8 (b.toNat / 10 % 10), BitVec.ofNat 8 (b.toNat % 10)]

/-- Store bytes at the memory operand, for the instruction `i` (R81, R82). -/
def storeAtI (i : Instr) (us : List Byte) (s : State) : Result :=
  match memWriteMany s (memOperand s) us with
  | .error e => .fault (e.toFault s.here (some (encode i)))
  | .ok t => .next t

/-- StoreBcd (R81). -/
def execStoreBcd (x : RegId) (s : State) : Result := storeAtI (.storeBcd x) (bcdDigits (s.reg x)) s

/-- StoreBytes (R82). -/
def execStoreBytes (x : RegId) (s : State) : Result := storeAtI (.storeBytes x) (s.regsUpTo x) s

/-- LoadBytes. No read depends on a register, so reading all bytes before writing any register is the
interleaving of R83 (log 16). -/
def execLoadBytes (x : RegId) (s : State) : Result :=
  match memReadMany s (memOperand s) (x.val + 1) with
  | .error e => .fault (e.toFault s.here (some (encode (.loadBytes x))))
  | .ok us => .next (s.setRegs 0 us)

end Sys2Proof.Machine
end

