-- ==== Sys2Proof/Machine/Alu.lean ====
section
/-! DEFINITION. The register, arithmetic, logic, shift and random instructions (spec/41_alu.md R66 to R77).
Each reads every operand before it writes any register (R64). -/

namespace Sys2Proof.Machine

/-- Set with a constant (R66). -/
def execSetConst (x : RegId) (nn : Byte) (s : State) : Result := .next (s.setReg x (constOperand nn))

/-- Add with a constant, which writes no flag (R67). -/
def execAddConst (x : RegId) (nn : Byte) (s : State) : Result :=
  .next (s.setReg x (addResult (s.reg x) (constOperand nn)))

/-- Set with a register (R68). -/
def execSetReg (x y : RegId) (s : State) : Result := .next (s.setReg x (regOperand s y))

/-- Or (R69). -/
def execOr (x y : RegId) (s : State) : Result := .next (s.setReg x (s.reg x ||| regOperand s y))

/-- And (R70). -/
def execAnd (x y : RegId) (s : State) : Result := .next (s.setReg x (s.reg x &&& regOperand s y))

/-- Xor (R71). -/
def execXor (x y : RegId) (s : State) : Result := .next (s.setReg x (s.reg x ^^^ regOperand s y))

/-- Add with a register, with carry (R72). -/
def execAddReg (x y : RegId) (s : State) : Result :=
  .next (s.setFlagged x (addFlag (s.reg x) (regOperand s y)) (addResult (s.reg x) (regOperand s y)))

/-- Sub: `V[x] - V[y]` (R73). -/
def execSub (x y : RegId) (s : State) : Result :=
  .next (s.setFlagged x (subFlag (s.reg x) (regOperand s y)) (subResult (s.reg x) (regOperand s y)))

/-- Shr: the source is `V[y]` (R74). -/
def execShr (x y : RegId) (s : State) : Result :=
  .next (s.setFlagged x (shrFlag (regOperand s y)) (shrResult (regOperand s y)))

/-- SubRev: `V[y] - V[x]` (R75). -/
def execSubRev (x y : RegId) (s : State) : Result :=
  .next (s.setFlagged x (subFlag (regOperand s y) (s.reg x)) (subResult (regOperand s y) (s.reg x)))

/-- Shl: the source is `V[y]` (R76). -/
def execShl (x y : RegId) (s : State) : Result :=
  .next (s.setFlagged x (shlFlag (regOperand s y)) (shlResult (regOperand s y)))

/-- GetRandom: the drawn byte, masked (R77). -/
def execGetRandom (x : RegId) (nn : Byte) (s : State) : Result :=
  .next (s.draw.2.setReg x (s.draw.1 &&& constOperand nn))

end Sys2Proof.Machine
end

