-- ==== Sys2Proof/Machine/Control.lean ====
section
/-! DEFINITION. The nine control-transfer instructions (spec/40_control.md R53 to R61). In each, `pc`
already holds the address of the instruction plus 2 (R52). -/

namespace Sys2Proof.Machine

/-- Return (R53). -/
def execReturn (s : State) : Result :=
  match s.stack with
  | [] => .fault (.stackUnderflow s.here (encode .ret))
  | a :: rest => .next ((s.withStack rest).withPc a)

/-- CallRCA: always the fatal fault Unsupported (R54; 90_conflicts.md C1). -/
def execCallRCA (nnn : Addr12) (s : State) : Result :=
  .fault (.unsupported s.here (encode (.callRCA nnn)))

/-- Jump (R55). -/
def execJump (nnn : Addr12) (s : State) : Result := .next (s.withPc (addrOperand nnn))

/-- Call (R56). -/
def execCall (nnn : Addr12) (s : State) : Result :=
  if s.depth < Config.stackDepth then .next ((s.push s.pc).withPc (addrOperand nnn))
  else .fault (.stackOverflow s.here (encode (.call nnn)))

/-- SkipIfEq with a constant (R57). -/
def execSkipIfEqConst (x : RegId) (nn : Byte) (s : State) : Result :=
  .next (s.skipIf (s.reg x == constOperand nn))

/-- SkipIfNotEq with a constant (R58). -/
def execSkipIfNotEqConst (x : RegId) (nn : Byte) (s : State) : Result :=
  .next (s.skipIf (s.reg x != constOperand nn))

/-- SkipIfEq with a register (R59). -/
def execSkipIfEqReg (x y : RegId) (s : State) : Result :=
  .next (s.skipIf (s.reg x == regOperand s y))

/-- SkipIfNotEq with a register (R60). -/
def execSkipIfNotEqReg (x y : RegId) (s : State) : Result :=
  .next (s.skipIf (s.reg x != regOperand s y))

/-- JumpWithOffset: the sum is kept whole, at most `0x10FE` (R61). -/
def execJumpWithOffset (nnn : Addr12) (s : State) : Result :=
  .next (s.withPc (addrOperand nnn + (s.reg 0).setWidth 16))

end Sys2Proof.Machine
end

