-- ==== Sys2Proof/Machine/Display.lean ====
section
/-! DEFINITION. The framebuffer unit (spec/43_display.md R85 to R88) and the two display instructions
(R89, R90). `FB[k]` is the byte at `0xF00 + k` (10_state.md R15). -/

namespace Sys2Proof.Machine

/-- `FB[k]` (10_state.md R15). -/
def Memory.fbGet (m : Memory) (k : Nat) : Byte := m.get (Config.fbBase + k)

/-- `FB[k] <- u` (10_state.md R15). -/
def Memory.fbSet (m : Memory) (k : Nat) (u : Byte) : Memory := m.set (Config.fbBase + k) u

/-- `FB[k] <- 0` for every `k` (R85). -/
@[irreducible] def Memory.fbZero (m : Memory) : Memory := m.setMany Config.fbBase (List.replicate Config.fbSize 0)

/-- `FbClear()` (R85). -/
def fbClear (s : State) : State := (s.withMem s.mem.fbZero).withDirty true

/-- XOR `p` into `FB[k]`; a bit set in both is a hit (R86, R87). -/
def blitByte (acc : Memory × Bool) (k : Nat) (p : Byte) : Memory × Bool :=
  (acc.1.fbSet k (acc.1.fbGet k ^^^ p), acc.2 || (acc.1.fbGet k &&& p) != 0)

/-- One sprite row `u` into framebuffer row `r` at column `col`: the first byte, and the second byte of the
same row when the row straddles two (R86). -/
def blitRow (acc : Memory × Bool) (col r : Nat) (u : Byte) : Memory × Bool :=
  let sh := col % 8
  let b0 := col / 8
  let b1 := (b0 + 1) % 8
  let first := blitByte acc (8 * r + b0) (u >>> sh)
  if sh = 0 then first else blitByte first (8 * r + b1) (u <<< (8 - sh))

/-- The sprite rows from row `i` on (R86). -/
def blitRows (cx cy : Nat) : Memory × Bool → Nat → List Byte → Memory × Bool
  | acc, _, [] => acc
  | acc, i, u :: us => blitRows cx cy (blitRow acc (cx % 64) ((cy + i) % 32) u) (i + 1) us

/-- `FbDraw(cx, cy, rows)`: the collision result and the state after; `dirty` is always set (R86 to R88). -/
def fbDraw (s : State) (cx cy : Byte) (rows : List Byte) : Bool × State :=
  let r := blitRows cx.toNat cy.toNat (s.mem, false) 0 rows
  (r.2, (s.withMem r.1).withDirty true)

/-- ClearScreen (R89). -/
def execClearScreen (s : State) : Result := .next (fbClear s)

/-- Draw: coordinates latched, all source bytes read, then the framebuffer, then VF (R90). -/
def execDraw (x y : RegId) (n : Fin 16) (s : State) : Result :=
  match memReadMany s (memOperand s) n.val with
  | .error e => .fault (e.toFault s.here (some (encode (.draw x y n))))
  | .ok rows =>
    .next ((fbDraw s (s.reg x) (s.reg y) rows).2.setReg vf
      (collisionFlag (fbDraw s (s.reg x) (s.reg y) rows).1))

/-- Pixel (column `c`, row `r`): bit `7 - (c mod 8)` of `FB[8*r + (c div 8)]` (10_state.md R15). -/
def State.pixel (s : State) (c r : Nat) : Bool :=
  (s.mem.fbGet (8 * r + c / 8)).getLsbD (7 - c % 8)

end Sys2Proof.Machine
end

