-- ==== Sys2Proof/Machine/Input.lean ====
section
/-! DEFINITION. The instructions that read the input latch and those that move values between a register
and a timer (spec/44_input_timer.md R91 to R96). -/

namespace Sys2Proof.Machine

/-- SkipIfKeyPressed (R91). -/
def execSkipIfKeyPressed (x : RegId) (s : State) : Result :=
  match index16 (s.reg x) with
  | none => .fault (.invalidKeyIndex s.here (encode (.skipIfKeyPressed x)) (s.reg x))
  | some k => .next (s.skipIf (s.isPressed k))

/-- SkipIfKeyNotPressed (R92). -/
def execSkipIfKeyNotPressed (x : RegId) (s : State) : Result :=
  match index16 (s.reg x) with
  | none => .fault (.invalidKeyIndex s.here (encode (.skipIfKeyNotPressed x)) (s.reg x))
  | some k => .next (s.skipIf (!s.isPressed k))

/-- GetDelay (R93). -/
def execGetDelay (x : RegId) (s : State) : Result := .next (s.setReg x s.dt)

/-- KeyWait: re-executed until a key is latched (R94). -/
def execKeyWait (x : RegId) (s : State) : Result :=
  match s.getKey with
  | (none, t) => .next t.rewind
  | (some k, t) => .next (t.setReg x (BitVec.ofNat 8 k.val))

/-- SetDelay (R95). -/
def execSetDelay (x : RegId) (s : State) : Result := .next (s.withDt (s.reg x))

/-- SetSound (R96). -/
def execSetSound (x : RegId) (s : State) : Result := .next (s.withSt (s.reg x))

end Sys2Proof.Machine
end

