-- ==== Sys2Proof/Machine/Dispatch.lean ====
section
/-! DEFINITION. One arm per operation of the opcode map (spec/30_encoding.md R46), each one direct call of
its meaning. `pc` already holds the address of the instruction plus 2 (40_control.md R52). -/

namespace Sys2Proof.Machine

def exec (i : Instr) (s : State) : Host.Outcome State Fault Refusal :=
  match i with
  | .clearScreen => Sys2Proof.Machine.execClearScreen s
  | .ret => Sys2Proof.Machine.execReturn s
  | .callRCA nnn => Sys2Proof.Machine.execCallRCA nnn s
  | .jump nnn => Sys2Proof.Machine.execJump nnn s
  | .call nnn => Sys2Proof.Machine.execCall nnn s
  | .skipIfEqConst x nn => Sys2Proof.Machine.execSkipIfEqConst x nn s
  | .skipIfNotEqConst x nn => Sys2Proof.Machine.execSkipIfNotEqConst x nn s
  | .skipIfEqReg x y => Sys2Proof.Machine.execSkipIfEqReg x y s
  | .setConst x nn => Sys2Proof.Machine.execSetConst x nn s
  | .addConst x nn => Sys2Proof.Machine.execAddConst x nn s
  | .setReg x y => Sys2Proof.Machine.execSetReg x y s
  | .or x y => Sys2Proof.Machine.execOr x y s
  | .and x y => Sys2Proof.Machine.execAnd x y s
  | .xor x y => Sys2Proof.Machine.execXor x y s
  | .addReg x y => Sys2Proof.Machine.execAddReg x y s
  | .sub x y => Sys2Proof.Machine.execSub x y s
  | .shr x y => Sys2Proof.Machine.execShr x y s
  | .subRev x y => Sys2Proof.Machine.execSubRev x y s
  | .shl x y => Sys2Proof.Machine.execShl x y s
  | .skipIfNotEqReg x y => Sys2Proof.Machine.execSkipIfNotEqReg x y s
  | .setAddr nnn => Sys2Proof.Machine.execSetAddr nnn s
  | .jumpWithOffset nnn => Sys2Proof.Machine.execJumpWithOffset nnn s
  | .getRandom x nn => Sys2Proof.Machine.execGetRandom x nn s
  | .draw x y n => Sys2Proof.Machine.execDraw x y n s
  | .skipIfKeyPressed x => Sys2Proof.Machine.execSkipIfKeyPressed x s
  | .skipIfKeyNotPressed x => Sys2Proof.Machine.execSkipIfKeyNotPressed x s
  | .getDelay x => Sys2Proof.Machine.execGetDelay x s
  | .keyWait x => Sys2Proof.Machine.execKeyWait x s
  | .setDelay x => Sys2Proof.Machine.execSetDelay x s
  | .setSound x => Sys2Proof.Machine.execSetSound x s
  | .addAddr x => Sys2Proof.Machine.execAddAddr x s
  | .loadGlyph x => Sys2Proof.Machine.execLoadGlyph x s
  | .storeBcd x => Sys2Proof.Machine.execStoreBcd x s
  | .storeBytes x => Sys2Proof.Machine.execStoreBytes x s
  | .loadBytes x => Sys2Proof.Machine.execLoadBytes x s

end Sys2Proof.Machine
end

