-- ==== Sys2Proof/Machine/Step.lean ====
section
/-! DEFINITION. One `step()` of the engine (spec/40_control.md R51): refuse when faulted, fetch, advance,
decode, execute. -/

namespace Sys2Proof.Machine

/-- `Step(rnd)` (40_control.md R51): a fault answers with its record and no state (60_exceptions.md R97,
R101; log 5); the random byte comes from the free value `Config.rnd` (log 4). -/
def step (s : State) : Host.Outcome State Fault Refusal :=
  match s.status with
  | .faulted r => .refused (.terminated r)
  | .running =>
    match fetch s with
    | .error f => .fault f
    | .ok w =>
      match decodeWord w with
      | .error _ => .fault (.decodeError s.pc w)
      | .ok i => exec i s.advance

/-- `s` with the instruction word `w` (its table bits, the bits above `nbits` 0) stored where `step` fetches
next, high byte first; the status is made running, and a `pc` that has no two bytes of storage is moved to
the entry point 0x200 (log 11). -/
def State.withFetchWord (s : State) (nbits w : Nat) : State :=
  let word : Word := BitVec.ofNat 16 (w % 2 ^ nbits)
  let pc : Word := if stored s.pc.toNat && stored (s.pc.toNat + 1) then s.pc else Config.resetPc
  { s with pc := pc, mem := s.mem.setMany pc.toNat [wordHi word, wordLo word], status := .running }

end Sys2Proof.Machine
end

