-- ==== Sys2Proof/Machine/HostCalls.lean ====
section
/-! DEFINITION. The seven host entry points (spec/60_exceptions.md R107 to R117), each one indivisible
transaction, all refused once the block is faulted (R100). -/

namespace Sys2Proof.Machine

/-- What the host hands over (R117). A key code and an address are natural numbers (log 9). -/
inductive HostCall where
  | step
  | tick
  | load (bytes : List Byte) (address : Nat)
  | keydown (code : Nat)
  | keyup (code : Nat)
  | display
  | pollAndClearDirty
  deriving DecidableEq, Repr

/-- What the host gets back (R117). -/
inductive Reply where
  /-- nothing, or `ok` -/
  | ok
  /-- `step()` returns its fault (R97) -/
  | fault (f : Fault)
  /-- `load` outside RAM (R115) -/
  | boundsViolation
  /-- the 256 bytes of `display()` (R113) -/
  | bytes (view : List Byte)
  /-- the old `dirty` (R114) -/
  | bit (b : Bool)
  /-- refused: no effect and no result (R100) -/
  | refused
  deriving DecidableEq, Repr

/-- `step()`: the next state, or the fault taken and returned (R97, R116). -/
def hostStep (s : State) : State × Reply :=
  match step s with
  | .next t => (t, .ok)
  | .fault f => (s.takeFault f, .fault f)
  | .refused _ => (s, .refused)

/-- One timer tick: down by 1 unless 0 (R107). -/
def countDown (b : Byte) : Byte := if b = 0 then 0 else b - 1

/-- `tick()` (R107). -/
def tick (s : State) : State := (s.withDt (countDown s.dt)).withSt (countDown s.st)

/-- `load(bytes, address)` (R115): all of the bytes, or none of them. -/
def load (bytes : List Byte) (address : Nat) (s : State) : State × Reply :=
  if address < Config.ramBase ∨ Config.ramEnd < address + bytes.length then (s, .boundsViolation)
  else (s.withMem (s.mem.setMany address bytes), .ok)

/-- `keydown(code)` (R109). -/
def keydown (code : Nat) (s : State) : State :=
  if h : code < 16 then (s.setPressed ⟨code, h⟩ true).withLatch (some ⟨code, h⟩) else s

/-- `keyup(code)` (R110). -/
def keyup (code : Nat) (s : State) : State :=
  if h : code < 16 then
    if s.latch = some ⟨code, h⟩ then (s.setPressed ⟨code, h⟩ false).withLatch none
    else s.setPressed ⟨code, h⟩ false
  else s

/-- `display()`: `FB[0]`..`FB[255]` (R113). -/
def display (s : State) : List Byte := (List.range Config.fbSize).map s.mem.fbGet

/-- A host call on a running block (R117). -/
def hostCallRunning (c : HostCall) (s : State) : State × Reply :=
  match c with
  | .step => hostStep s
  | .tick => (tick s, .ok)
  | .load bytes address => load bytes address s
  | .keydown code => (keydown code s, .ok)
  | .keyup code => (keyup code s, .ok)
  | .display => (s, .bytes (display s))
  | .pollAndClearDirty => (s.withDirty false, .bit s.dirty)

/-- One host call: refused when faulted (R100, R117). -/
def hostCall (c : HostCall) (s : State) : State × Reply :=
  match s.status with
  | .faulted _ => (s, .refused)
  | .running => hostCallRunning c s

/-- The state after a list of host calls, in order (R37, R117; log 8). -/
def runCalls : List HostCall → State → State
  | [], s => s
  | c :: cs, s => runCalls cs (hostCall c s).1

end Sys2Proof.Machine
end

