-- ==== Sys2Proof/Safety.lean ====
section
/-! DEFINITION. The terms in which claims are made: the machine's invariant, what a safe run is, what an
operation may change, where it may leave `pc`, which faults it may raise, and the picture a draw makes. -/

namespace Sys2Proof.Machine

/-! ### Invariant and safe runs -/

/-- The invariant of a running block: memory is canonical and only where there is storage, `I` has 12
significant bits (10_state.md R9, 42_address.md R84), `pc` is in its range (10_state.md R12), the stack is
bounded (R13) with entries that were post-advance `pc` values (R12), and a latched key is down
(95_test_vectors.md V142). -/
structure State.Inv (s : State) : Prop where
  memWf      : s.mem.wf = true
  memStored  : s.mem.inStorage = true
  iBound     : s.i.toNat < 0x1000
  pcBound    : s.pc.toNat ≤ 0x10FE
  depthBound : s.depth ≤ Config.stackDepth
  stackBound : ∀ a ∈ s.stack, a.toNat ≤ 0x1000
  latchDown  : ∀ k, s.latch = some k → s.isPressed k = true

/-- A run of host calls is safe when no fault has ended it (60_exceptions.md R100). -/
def SafeRun (calls : List HostCall) (s : State) : Prop := (runCalls calls s).status = .running

/-! ### Frames -/

/-- The state beside the general registers and memory. -/
inductive Part where
  | i | pc | stack | dt | st | dirty | pressed | latch | status | draws
  deriving DecidableEq, Repr

/-- The part is the same in both states. -/
def Part.Same (s t : State) : Part → Prop
  | .i => t.i = s.i
  | .pc => t.pc = s.pc
  | .stack => t.stack = s.stack
  | .dt => t.dt = s.dt
  | .st => t.st = s.st
  | .dirty => t.dirty = s.dirty
  | .pressed => t.pressed = s.pressed
  | .latch => t.latch = s.latch
  | .status => t.status = s.status
  | .draws => t.draws = s.draws

/-- From `s` to `t`, no general register but `regs` and no part but `parts` changes. -/
structure Frame (s t : State) (regs : List RegId) (parts : List Part) : Prop where
  regs  : ∀ r, r ∉ regs → t.reg r = s.reg r
  parts : ∀ p, p ∉ parts → p.Same s t

/-- Every address reads as before, faults included. -/
def BytesSame (s t : State) : Prop := ∀ a, memRead t a = memRead s a

/-- Every address outside `start .. start + len - 1` reads as before, faults included. -/
def BytesSameOutside (s t : State) (start len : Nat) : Prop :=
  ∀ a, ¬ (start ≤ a ∧ a < start + len) → memRead t a = memRead s a

/-- The general registers an instruction may write: the destination register, and VF for the seven
operations of 10_state.md R8. -/
def regsWritten : Instr → List RegId
  | .clearScreen | .ret | .callRCA _ | .jump _ | .call _ | .jumpWithOffset _ => []
  | .skipIfEqConst _ _ | .skipIfNotEqConst _ _ | .skipIfEqReg _ _ | .skipIfNotEqReg _ _ => []
  | .skipIfKeyPressed _ | .skipIfKeyNotPressed _ | .setDelay _ | .setSound _ => []
  | .setAddr _ | .loadGlyph _ | .storeBcd _ | .storeBytes _ => []
  | .setConst x _ | .addConst x _ | .setReg x _ | .or x _ | .and x _ | .xor x _ => [x]
  | .getRandom x _ | .getDelay x | .keyWait x => [x]
  | .addReg x _ | .sub x _ | .shr x _ | .subRev x _ | .shl x _ => [vf, x]
  | .addAddr _ | .draw _ _ _ => [vf]
  | .loadBytes x => (List.finRange 16).filter (fun r => r ≤ x)

/-- The parts an instruction may write (10_state.md R9, R10, R13, R14, R16, R17; log 4 for `draws`). -/
def partsWritten : Instr → List Part
  | .ret | .call _ => [.pc, .stack]
  | .jump _ | .jumpWithOffset _ => [.pc]
  | .skipIfEqConst _ _ | .skipIfNotEqConst _ _ | .skipIfEqReg _ _ | .skipIfNotEqReg _ _ => [.pc]
  | .skipIfKeyPressed _ | .skipIfKeyNotPressed _ => [.pc]
  | .keyWait _ => [.pc, .latch]
  | .setDelay _ => [.dt]
  | .setSound _ => [.st]
  | .setAddr _ | .addAddr _ | .loadGlyph _ => [.i]
  | .clearScreen | .draw _ _ _ | .storeBcd _ | .storeBytes _ => [.dirty]
  | .getRandom _ _ => [.draws]
  | .setConst _ _ | .addConst _ _ | .setReg _ _ | .or _ _ | .and _ _ | .xor _ _ => []
  | .addReg _ _ | .sub _ _ | .shr _ _ | .subRev _ _ | .shl _ _ => []
  | .callRCA _ | .getDelay _ | .loadBytes _ => []

/-- The bytes an instruction stores to in state `s`, as a start and a count (20_memory.md R34). -/
def bytesWritten (s : State) : Instr → Nat × Nat
  | .storeBcd _ => (memOperand s, 3)
  | .storeBytes x => (memOperand s, x.val + 1)
  | .clearScreen | .draw _ _ _ => (Config.fbBase, Config.fbSize)
  | .ret | .callRCA _ | .jump _ | .call _ | .jumpWithOffset _ => (0, 0)
  | .skipIfEqConst _ _ | .skipIfNotEqConst _ _ | .skipIfEqReg _ _ | .skipIfNotEqReg _ _ => (0, 0)
  | .skipIfKeyPressed _ | .skipIfKeyNotPressed _ | .setDelay _ | .setSound _ => (0, 0)
  | .setAddr _ | .loadGlyph _ | .addAddr _ | .loadBytes _ => (0, 0)
  | .setConst _ _ | .addConst _ _ | .setReg _ _ | .or _ _ | .and _ _ | .xor _ _ => (0, 0)
  | .addReg _ _ | .sub _ _ | .shr _ _ | .subRev _ _ | .shl _ _ => (0, 0)
  | .getRandom _ _ | .getDelay _ | .keyWait _ => (0, 0)

/-- Where an instruction may leave `pc`, from the state `s` it executes in (10_state.md R10). -/
def PcAfter (s t : State) : Instr → Prop
  | .jump nnn | .call nnn => t.pc.toNat = nnn.toNat
  | .jumpWithOffset nnn => t.pc.toNat = nnn.toNat + (s.reg 0).toNat
  | .ret => s.stack.head? = some t.pc
  | .skipIfEqConst x nn => t.pc = if s.reg x = nn then s.pc + 2 else s.pc
  | .skipIfNotEqConst x nn => t.pc = if s.reg x = nn then s.pc else s.pc + 2
  | .skipIfEqReg x y => t.pc = if s.reg x = s.reg y then s.pc + 2 else s.pc
  | .skipIfNotEqReg x y => t.pc = if s.reg x = s.reg y then s.pc else s.pc + 2
  | .skipIfKeyPressed x => ∃ k : KeyId, k.val = (s.reg x).toNat ∧ t.pc = if s.isPressed k then s.pc + 2 else s.pc
  | .skipIfKeyNotPressed x => ∃ k : KeyId, k.val = (s.reg x).toNat ∧ t.pc = if s.isPressed k then s.pc else s.pc + 2
  | .keyWait _ => t.pc = if s.latch = none then s.pc - 2 else s.pc
  | .clearScreen | .callRCA _ | .setDelay _ | .setSound _ | .getDelay _ | .getRandom _ _ => t.pc = s.pc
  | .setAddr _ | .loadGlyph _ | .addAddr _ | .loadBytes _ | .storeBcd _ | .storeBytes _ => t.pc = s.pc
  | .setConst _ _ | .addConst _ _ | .setReg _ _ | .or _ _ | .and _ _ | .xor _ _ | .draw _ _ _ => t.pc = s.pc
  | .addReg _ _ | .sub _ _ | .shr _ _ | .subRev _ _ | .shl _ _ => t.pc = s.pc

/-- The fault kinds an instruction may raise, the "raised by" column of 60_exceptions.md R98 read by
instruction. -/
def mayRaise : Instr → List FaultKind
  | .ret => [.stackUnderflow]
  | .call _ => [.stackOverflow]
  | .callRCA _ => [.unsupported]
  | .loadGlyph _ => [.invalidGlyphIndex]
  | .skipIfKeyPressed _ | .skipIfKeyNotPressed _ => [.invalidKeyIndex]
  | .draw _ _ _ | .loadBytes _ => [.addressOutOfRange, .reservedRegionAccess]
  | .storeBcd _ | .storeBytes _ => [.addressOutOfRange, .reservedRegionAccess, .readOnlyWrite]
  | .clearScreen | .jump _ | .jumpWithOffset _ => []
  | .skipIfEqConst _ _ | .skipIfNotEqConst _ _ | .skipIfEqReg _ _ | .skipIfNotEqReg _ _ => []
  | .setDelay _ | .setSound _ | .getDelay _ | .getRandom _ _ | .keyWait _ | .setAddr _ | .addAddr _ => []
  | .setConst _ _ | .addConst _ _ | .setReg _ _ | .or _ _ | .and _ _ | .xor _ _ => []
  | .addReg _ _ | .sub _ _ | .shr _ _ | .subRev _ _ | .shl _ _ => []

/-! ### Decoding -/

/-- The illegal words of 30_encoding.md R47, by the value of the word: its major opcode `w / 0x1000` and its low
nibble or low byte. -/
def illegal (w : Word) : Bool :=
  match w.toNat / 0x1000 with
  | 0x5 | 0x9 => w.toNat % 0x10 != 0x0
  | 0x8 => [0x8, 0x9, 0xA, 0xB, 0xC, 0xD, 0xF].contains (w.toNat % 0x10)
  | 0xE => !([0x9E, 0xA1].contains (w.toNat % 0x100))
  | 0xF => !([0x07, 0x0A, 0x15, 0x18, 0x1E, 0x29, 0x33, 0x55, 0x65].contains (w.toNat % 0x100))
  | _ => false

/-- The operands of an instruction are the fields of the word (30_encoding.md R42, R44). -/
def OperandsAre (w : Word) : Instr → Prop
  | .clearScreen | .ret => True
  | .callRCA nnn | .jump nnn | .call nnn | .setAddr nnn | .jumpWithOffset nnn => nnn = w.extractLsb' 0 12
  | .skipIfEqConst x nn | .skipIfNotEqConst x nn | .setConst x nn | .addConst x nn | .getRandom x nn =>
    x.val = (w.extractLsb' 8 4).toNat ∧ nn = w.extractLsb' 0 8
  | .skipIfEqReg x y | .skipIfNotEqReg x y | .setReg x y | .or x y | .and x y | .xor x y | .addReg x y | .sub x y
  | .shr x y | .subRev x y | .shl x y =>
    x.val = (w.extractLsb' 8 4).toNat ∧ y.val = (w.extractLsb' 4 4).toNat
  | .draw x y n =>
    x.val = (w.extractLsb' 8 4).toNat ∧ y.val = (w.extractLsb' 4 4).toNat ∧ n.val = (w.extractLsb' 0 4).toNat
  | .skipIfKeyPressed x | .skipIfKeyNotPressed x | .getDelay x | .keyWait x | .setDelay x | .setSound x | .addAddr x
  | .loadGlyph x | .storeBcd x | .storeBytes x | .loadBytes x => x.val = (w.extractLsb' 8 4).toNat

/-! ### The picture of a draw -/

/-- Whether the sprite `rows`, drawn with its top left pixel at column `cx mod 64` and row `cy mod 32` and
wrapping in both directions, has a lit pixel at column `c`, row `r` (43_display.md R86). The most significant
bit of a row byte is its leftmost pixel (10_state.md R15). -/
def spritePixel (rows : List Byte) (cx cy c r : Nat) : Bool :=
  decide ((c + 64 - cx % 64) % 64 < 8) &&
  (rows.getD ((r + 32 - cy % 32) % 32) 0).getLsbD (7 - (c + 64 - cx % 64) % 64)

end Sys2Proof.Machine
end

