-- ==== Sys2Proof/Certificates/Slice0/Obligations.lean ====
section
/-! DEFINITION. The statements for the provers, each about the machine and none about a program. `s` is the
state an instruction executes in, whose `pc` is already the address of the instruction plus 2
(spec/40_control.md R52). A docstring names the rule it formalises, or, where the rule rests on a decision
of the spec's own or on a choice of this model, the decision or the log entry. -/

open Sys2Proof Sys2Proof.Machine

/-! ### Encoding -/

/-- Fourteen words the spec writes out decode to the operations it names (95_test_vectors.md W1 to W4, V1 to V27).
That `0xF275` is a DecodeError is the spec's own choice (90_conflicts.md C2, decision D26; log 14). -/
def Obligations.DecodeSampleWords : Prop :=
  decodeWord 0x00E0 = .ok .clearScreen ∧ decodeWord 0x00EE = .ok .ret ∧
  decodeWord 0x0000 = .ok (.callRCA 0x000) ∧ decodeWord 0x00E1 = .ok (.callRCA 0x0E1) ∧
  decodeWord 0x1ABC = .ok (.jump 0xABC) ∧ decodeWord 0x8013 = .ok (.xor 0 1) ∧
  decodeWord 0x3F00 = .ok (.skipIfEqConst 15 0x00) ∧ decodeWord 0x812E = .ok (.shl 1 2) ∧
  decodeWord 0xBFFF = .ok (.jumpWithOffset 0xFFF) ∧ decodeWord 0xD120 = .ok (.draw 1 2 0) ∧
  decodeWord 0xE19E = .ok (.skipIfKeyPressed 1) ∧ decodeWord 0xFF65 = .ok (.loadBytes 15) ∧
  decodeWord 0x5121 = .error (.decodeError 0x5121) ∧ decodeWord 0xF275 = .error (.decodeError 0xF275)

/-- Decoding the word of a well-formed instruction gives the instruction back, with every operand at every
value the encoding admits. -/
def Obligations.DecodeOfEncodeIsIdentity : Prop :=
  ∀ i : Instr, i.WellFormed → decodeWord (encode i) = .ok i

/-- Each word has one meaning: what decodes to `i` is the word of `i`, and `i` is well-formed. -/
def Obligations.EncodeOfDecodeIsIdentity : Prop :=
  ∀ (w : Word) (i : Instr), decodeWord w = .ok i → encode i = w ∧ i.WellFormed

/-- 30_encoding.md R46: the map has 35 rows; a word decodes to an operation of a row exactly when
`w AND mask = match`, where row 3 also needs `w` to be neither `00E0` nor `00EE`. So the rows are disjoint. -/
def Obligations.DecodeFollowsOpcodeMap : Prop :=
  (∃ rows : List OpRow, rows.Nodup ∧ rows.length = 35 ∧ ∀ r, r ∈ rows ↔ ∃ i : Instr, i.row = r) ∧
  (∀ (w : Word) (i : Instr),
    (∃ j, decodeWord w = .ok j ∧ j.row = i.row) ↔
      (w &&& i.row.mask = i.row.pattern ∧ (i.row = ⟨0x0000, 0xF000⟩ → w ≠ 0x00E0 ∧ w ≠ 0x00EE)))

/-- Every decoded operand is the field of the word at the bit positions of 30_encoding.md R42, with nothing
extended, scaled or shifted (R44). -/
def Obligations.DecodedOperandsAreFields : Prop :=
  ∀ (w : Word) (i : Instr), decodeWord w = .ok i → OperandsAre w i

/-- Exactly the listed words are illegal, with the counts of the table of 30_encoding.md R47, and fetching one is
a fault; every other word decodes to an operation. That no F word outside the nine decodes is the spec's own
choice (90_conflicts.md C2, decision D26; log 14). -/
def Obligations.IllegalWordsAreExactlyTheListed : Prop :=
  (∀ w : Word, decodeWord w = .error (.decodeError w) ↔ illegal w = true) ∧
  (∀ w : Word, illegal w = false → ∃ i, decodeWord w = .ok i) ∧
  (∀ (s : State) (w : Word), s.status = .running → fetch s = .ok w → illegal w = true →
    ∃ f, step s = .fault f ∧ faultKind f = .decodeError ∧ faultDatum f = some w.toNat) ∧
  [0x5000, 0x8000, 0x9000, 0xE000, 0xF000].map (fun family =>
      (List.range 0x1000).countP (fun n => illegal (BitVec.ofNat 16 (family + n)))) = [3840, 1792, 3840, 4064, 3952] ∧
  3840 + 1792 + 3840 + 4064 + 3952 = 17488 ∧ 0x10000 - 17488 = 48048

/-- An instruction is exactly two bytes, the high one first: its bytes decode to it and to nothing more, and
fewer than two bytes are no instruction. -/
def Obligations.InstructionIsTwoBytes : Prop :=
  (∀ (i : Instr) (rest : List Byte), i.WellFormed → decodeBytes (encodeBytes i ++ rest) = .ok (i, rest)) ∧
  (∀ i : Instr, (encodeBytes i).length = 2) ∧
  (∀ bytes : List Byte, decodeBytes bytes = .error .truncated ↔ bytes.length < 2)

/-! ### The step -/

/-- A step refuses when faulted; otherwise it fetches the byte at `pc` and then the one at `pc + 1`, each of
which may fault with no word recorded; an illegal word faults as DecodeError; and a legal word executes with
`pc` advanced by 2 (40_control.md, Execution cycle). The spec's own choices in it are decisions D11, D12, D14
(an odd `pc` is fetched too), D15, D16 (`pc + 1` is not wrapped), D17 and D22 (log 14); the form of the answer is
log 5 and log 7. -/
def Obligations.StepFetchesAdvancesDecodesExecutes : Prop :=
  (∀ s f, s.status = .faulted f → step s = .refused (.terminated f)) ∧
  (∀ s e, s.status = .running → memRead s s.pc.toNat = .error e → step s = .fault (e.toFault s.pc none)) ∧
  (∀ s hi e, s.status = .running → memRead s s.pc.toNat = .ok hi → memRead s (s.pc.toNat + 1) = .error e →
    step s = .fault (e.toFault s.pc none)) ∧
  (∀ s hi lo w, s.status = .running → memRead s s.pc.toNat = .ok hi → memRead s (s.pc.toNat + 1) = .ok lo →
    decodeWord (wordOfBytes hi lo) = .error (.decodeError w) → step s = .fault (.decodeError s.pc w)) ∧
  (∀ s hi lo i, s.status = .running → memRead s s.pc.toNat = .ok hi → memRead s (s.pc.toNat + 1) = .ok lo →
    decodeWord (wordOfBytes hi lo) = .ok i → step s = exec i (s.withPc (s.pc + 2)))

/-- No instruction is ever refused, and a step is refused exactly when the block is already faulted, with the
record of that fault. That a faulted block refuses is the spec's own choice (60_exceptions.md, Faults, decision
D12; log 14). -/
def Obligations.OnlyAFaultedBlockRefuses : Prop :=
  (∀ i s r, exec i s ≠ .refused r) ∧
  (∀ s r, step s = .refused r ↔ ∃ f, s.status = .faulted f ∧ r = .terminated f)

/-- The record of a fault names the instruction: `a` is the address it was fetched from, and `w` is the word
fetched, or none when the fetch itself faults (60_exceptions.md, the fault record, decision D11; log 7). -/
def Obligations.FaultRecordNamesTheInstruction : Prop :=
  ∀ s f, s.status = .running → step s = .fault f →
    faultAddress f = s.pc ∧
    ((∃ g, fetch s = .error g) ∧ faultWord f = none ∨ ∃ w, fetch s = .ok w ∧ faultWord f = some w)

/-- An instruction raises only the fault kinds that 60_exceptions.md lists for it, and the kinds have the
codes 1 to 9 of its table. The spec's own choices in the list are the codes and the name ReadOnlyWrite (decision
D11), CallRCA as Unsupported (90_conflicts.md C1, decision D13) and InvalidKeyIndex of the key skips (decision D18)
(log 14). -/
def Obligations.FaultKindsByInstruction : Prop :=
  (∀ i s f, exec i s = .fault f → faultKind f ∈ mayRaise i) ∧
  ([FaultKind.decodeError, .stackOverflow, .stackUnderflow, .addressOutOfRange, .reservedRegionAccess,
    .invalidGlyphIndex, .readOnlyWrite, .unsupported, .invalidKeyIndex].map faultCode = [1, 2, 3, 4, 5, 6, 7, 8, 9])

/-- A fault sets the status to the fault with its record, is returned by `step()`, and leaves the block in a
state that no list of host calls changes; a step without a fault returns `ok` and the next state
(60_exceptions.md, Faults). The record is decision D11 and the terminal state decision D12, the spec's own choices
(log 14); the form of the answer is log 5 and log 6. -/
def Obligations.FaultIsTakenReturnedAndTerminal : Prop :=
  (∀ s f, s.status = .running → step s = .fault f →
    (hostCall .step s).2 = .fault f ∧ (hostCall .step s).1.status = .faulted f ∧
    ∀ calls, runCalls calls (hostCall .step s).1 = (hostCall .step s).1) ∧
  (∀ s t, s.status = .running → step s = .next t → hostCall .step s = (t, .ok))

/-- Once faulted, each of the seven entry points is refused and changes nothing, the record included: the spec's
own choice (60_exceptions.md, Faults, decision D12; log 14). -/
def Obligations.FaultedBlockRefusesEveryCall : Prop :=
  ∀ s f c, s.status = .faulted f → hostCall c s = (s, .refused)

/-! ### Memory -/

/-- What every address reads as, by region: the glyph table at `0x000` and zeros after it, RAM, the framebuffer, and
a fault everywhere else (20_memory.md, the address decoder and MemRead). The glyph base is decision D8 (log 13),
the glyph bytes a free value (decision D9; log 3), and `FB[k]` at `0xF00 + k` decision D6 (log 10, log 14). -/
def Obligations.ReadByRegion : Prop :=
  ∀ (s : State) (a : Nat),
    (a < 80 → memRead s a = .ok (Config.glyphTable a)) ∧
    (80 ≤ a → a < 0x1A0 → memRead s a = .ok 0) ∧
    (0x1A0 ≤ a → a < 0x200 → memRead s a = .error (.reservedRegionAccess a)) ∧
    (0x200 ≤ a → a < 0xEA0 → memRead s a = .ok (s.mem.get a)) ∧
    (0xEA0 ≤ a → a < 0xF00 → memRead s a = .error (.reservedRegionAccess a)) ∧
    (0xF00 ≤ a → a < 0x1000 → memRead s a = .ok (s.mem.fbGet (a - 0xF00))) ∧
    (0x1000 ≤ a → memRead s a = .error (.addressOutOfRange a))

/-- A byte write in RAM or the framebuffer is read back, changes no other byte and nothing else, and sets `dirty`
exactly in the framebuffer, even when the byte is the same (90_conflicts.md C10); a write anywhere else is the
fault of its region (20_memory.md, MemWrite). The name ReadOnlyWrite is decision D11, and the framebuffer
addresses are decision D6: the spec's own choices (log 10, log 14). -/
def Obligations.WriteByRegion : Prop :=
  ∀ (s : State) (a : Nat) (u : Byte),
    (0x200 ≤ a → a < 0xEA0 → ∃ t, memWrite s a u = .ok t ∧ memRead t a = .ok u ∧ Frame s t [] [] ∧
      BytesSameOutside s t a 1) ∧
    (0xF00 ≤ a → a < 0x1000 → ∃ t, memWrite s a u = .ok t ∧ memRead t a = .ok u ∧ t.dirty = true ∧
      Frame s t [] [.dirty] ∧ BytesSameOutside s t a 1) ∧
    (a < 0x1A0 → memWrite s a u = .error (.readOnlyWrite a)) ∧
    (0x1A0 ≤ a → a < 0x200 → memWrite s a u = .error (.reservedRegionAccess a)) ∧
    (0xEA0 ≤ a → a < 0xF00 → memWrite s a u = .error (.reservedRegionAccess a)) ∧
    (0x1000 ≤ a → memWrite s a u = .error (.addressOutOfRange a))

/-- A word read is big-endian, two byte reads with the lower address first; it succeeds only inside one region,
and at each region boundary faults with the first byte that faults (20_memory.md, decision D15), with no wrap at
the end of memory (decision D16). An odd address is read like any other (decision D14). These are the spec's own
choices (log 14). -/
def Obligations.WordReadIsTwoByteReads : Prop :=
  ∀ s : State,
    (∀ a w, memReadWord s a = .ok w ↔
      ∃ hi lo, memRead s a = .ok hi ∧ memRead s (a + 1) = .ok lo ∧ w.toNat = hi.toNat * 256 + lo.toNat) ∧
    (∀ a w, memReadWord s a = .ok w →
      a + 1 < 0x1A0 ∨ (0x200 ≤ a ∧ a + 1 < 0xEA0) ∨ (0xF00 ≤ a ∧ a + 1 < 0x1000)) ∧
    memReadWord s 0x19F = .error (.reservedRegionAccess 0x1A0) ∧
    memReadWord s 0x1FF = .error (.reservedRegionAccess 0x1FF) ∧
    memReadWord s 0xE9F = .error (.reservedRegionAccess 0xEA0) ∧
    memReadWord s 0xEFF = .error (.reservedRegionAccess 0xEFF) ∧
    memReadWord s 0xFFF = .error (.addressOutOfRange 0x1000)

/-- A store of two bytes at `pc` is what the very next fetch reads (20_memory.md, instruction-fetch coherence), at an
odd `pc` too (decision D14; log 14). -/
def Obligations.FetchSeesEarlierStores : Prop :=
  ∀ (s t : State) (hi lo : Byte), memWriteMany s s.pc.toNat [hi, lo] = .ok t →
    ∃ w, fetch t = .ok w ∧ w.toNat = hi.toNat * 256 + lo.toNat

/-- After construction with any open parameters (decision D10), `load(program, 0x200)` makes the first two loaded
bytes the first instruction fetched (95_test_vectors.md W15). What `load` answers is decision D20 (log 14). -/
def Obligations.LoadedProgramIsFetchedFirst : Prop :=
  ∀ (p : Config.Init) (hi lo : Byte) (rest : List Byte), rest.length ≤ 3230 →
    ∃ t w, hostCall (.load (hi :: lo :: rest) 0x200) (State.construct p) = (t, .ok) ∧
      fetch t = .ok w ∧ w.toNat = hi.toNat * 256 + lo.toNat

/-! ### Construction and invariants -/

/-- The value of every piece of state at construction, for every value of the open parameters `p`
(10_state.md, Reset values, decisions D9, D10 and D12; log 1 and log 2 for the parameters `State.reset` takes).
The glyph table at address 0 is the choice of decision D8 (log 13), its bytes a free value (log 3), and FB[k] at
`0xF00 + k` is decision D6 (log 10). -/
def Obligations.ConstructionValues : Prop :=
  ∀ p : Config.Init,
    (State.construct p).pc = 0x200 ∧ (State.construct p).depth = 0 ∧ (State.construct p).latch = none ∧
    (State.construct p).status = .running ∧ (∀ k, (State.construct p).isPressed k = false) ∧
    (∀ r, (State.construct p).reg r = p.v r) ∧ (State.construct p).i.toNat = p.i.toNat ∧
    (State.construct p).dt = p.dt ∧ (State.construct p).st = p.st ∧ (State.construct p).dirty = p.dirty ∧
    (∀ k, memRead (State.construct p) (0x200 + k.val) = .ok (p.ram k)) ∧
    (∀ k, memRead (State.construct p) (0xF00 + k.val) = .ok (p.fb k)) ∧
    (∀ a, a < 80 → memRead (State.construct p) a = .ok (Config.glyphTable a)) ∧
    (∀ a, 80 ≤ a → a < 0x1A0 → memRead (State.construct p) a = .ok 0)

/-- The state after reset meets the invariant. Its zeros are the model's choice (log 1, log 2, log 4), its idle input
state is decision D10, and the one list of cells that holds RAM and the framebuffer is the model's form (log 10). -/
def Obligations.ResetMeetsInvariant : Prop := State.reset.Inv

/-- Construction meets the invariant whatever the open parameters are. That `I` starts below `0x1000` and the input
state idle is decision D10; the list of cells is the model's form (log 2, log 10). -/
def Obligations.ConstructionMeetsInvariant : Prop := ∀ p : Config.Init, (State.construct p).Inv

/-- Every step keeps the invariant: canonical memory only where there is storage, `I` in 12 bits, `pc` at most
`0x10FE`, at most 16 stack entries each at most `0x1000`, and a latched key down. Canonical memory is the model's
form (log 2, log 10); the bound of `0x1000` rests on the unwrapped `pc + 1` of decision D16 (log 14). -/
def Obligations.StepKeepsInvariant : Prop := ∀ s t, s.Inv → step s = .next t → t.Inv

/-- Every host call that leaves the block running keeps the invariant. Canonical memory is the model's form (log 2,
log 10); the bound of the stack entries rests on the unwrapped `pc + 1` of decision D16 (log 14); calls come one
after another (log 8), with natural numbers for key codes and load addresses (log 9). -/
def Obligations.HostCallsKeepInvariant : Prop :=
  ∀ (c : HostCall) (s : State), s.Inv → (hostCall c s).1.status = .running → (hostCall c s).1.Inv

/-- In every safe run from construction, whatever the host calls and the open parameters (decision D10), `pc` is at
most `0x10FE`, `I` at most `0xFFF`, and the stack holds at most 16 entries, none above `0x1000`. A run is a list of
host calls, one after another: the model's choice (log 8, log 15), after decisions D1 and D2. That a fault ends a
run is decision D12, and the unwrapped `pc + 1` decision D16 (log 14). -/
def Obligations.SafeRunsStayInBounds : Prop :=
  ∀ (p : Config.Init) (calls : List HostCall), SafeRun calls (State.construct p) →
    (runCalls calls (State.construct p)).pc.toNat ≤ 0x10FE ∧
    (runCalls calls (State.construct p)).i.toNat ≤ 0xFFF ∧
    (runCalls calls (State.construct p)).depth ≤ 16 ∧
    ∀ a ∈ (runCalls calls (State.construct p)).stack, a.toNat ≤ 0x1000

/-! ### Whole-machine rules -/

/-- No instruction changes a general register, another part of the state or a byte of memory beside those the
spec gives it to write (and GetRandom the model's own counter `draws`, log 4). The addresses a store writes to are
not wrapped (decision D16), and the framebuffer's are decision D6: the spec's own choices (log 10, log 14). -/
def Obligations.EveryInstructionFrame : Prop :=
  ∀ i s t, exec i s = .next t →
    Frame s t (regsWritten i) (partsWritten i) ∧ BytesSameOutside s t (bytesWritten s i).1 (bytesWritten s i).2

/-- `pc` starts at `0x200`, and is written by the fetch advance, by jumps, calls, returns, satisfied skips and the
rewind of KeyWait, and by no other instruction or host call (10_state.md, Program counter). That a key skip goes
on only when `V[x]` is at most 15 is the spec's own choice (decision D18; log 14). -/
def Obligations.PcIsWrittenByTheseEventsOnly : Prop :=
  (∀ p, (State.construct p).pc = 0x200) ∧
  (∀ s t w i, s.status = .running → fetch s = .ok w → decodeWord w = .ok i → step s = .next t →
    PcAfter (s.withPc (s.pc + 2)) t i) ∧
  (∀ c s, s.status = .running → c ≠ .step → (hostCall c s).1.pc = s.pc)

/-- The poll returns `dirty` and clears it, and nothing else clears it (60_exceptions.md, Display observation).
`dirty` is set by ClearScreen, by every Draw and by a store into the framebuffer, and by no other instruction or
host call (10_state.md, Framebuffer and dirty flag). That it is set even when no byte changes is the spec's own
choice (90_conflicts.md C10; log 14). -/
def Obligations.DirtyIsSetByWritesAndClearedByPollOnly : Prop :=
  (∀ i s t, exec i s = .next t →
    t.dirty = (s.dirty || match i with
      | .clearScreen | .draw _ _ _ => true
      | .storeBcd _ | .storeBytes _ => decide (0xF00 ≤ memOperand s)
      | _ => false)) ∧
  (∀ c s, s.status = .running → c ≠ .step → c ≠ .pollAndClearDirty → (hostCall c s).1.dirty = s.dirty) ∧
  (∀ s, s.status = .running → hostCall .pollAndClearDirty s = (s.withDirty false, .bit s.dirty))

/-- No instruction reads `dirty` or `ST`: with other values of the two, an instruction does the same, up to the
two (10_state.md, Timers, Framebuffer and dirty flag). -/
def Obligations.DirtyAndSoundTimerAreInvisible : Prop :=
  ∀ (i : Instr) (s : State) (b : Bool) (u : Byte),
    match exec i s, exec i ((s.withDirty b).withSt u) with
    | .next t, .next t' => (t'.withDirty t.dirty).withSt t.st = t
    | .fault f, .fault f' => f = f'
    | _, _ => False

/-! ### Control transfer -/

/-- 40_control.md R53: Return pops the most recent entry into `pc`, and faults on an empty stack. -/
def Obligations.ReturnPops : Prop :=
  (∀ s a rest, s.stack = a :: rest →
    ∃ t, exec .ret s = .next t ∧ t.pc = a ∧ t.stack = rest ∧ Frame s t [] [.pc, .stack] ∧ BytesSame s t) ∧
  (∀ s, s.stack = [] → ∃ f, exec .ret s = .fault f ∧ faultKind f = .stackUnderflow)

/-- CallRCA always faults as Unsupported with its word, whatever the state and its operand (40_control.md, CallRCA).
The fatal reading is the spec's own choice (90_conflicts.md C1, decision D13; log 14), and so are the name and
the datum (decision D11). -/
def Obligations.CallRCAAlwaysFaults : Prop :=
  ∀ (nnn : Addr12) (s : State),
    ∃ f, exec (.callRCA nnn) s = .fault f ∧ faultKind f = .unsupported ∧ faultDatum f = some nnn.toNat

/-- 40_control.md R55: Jump sets `pc` to its target and changes nothing else. -/
def Obligations.JumpSetsPc : Prop :=
  ∀ (nnn : Addr12) (s : State),
    ∃ t, exec (.jump nnn) s = .next t ∧ t.pc.toNat = nnn.toNat ∧ Frame s t [] [.pc] ∧ BytesSame s t

/-- 40_control.md R56: Call pushes `pc`, the address of the next instruction, and jumps; with 16 entries on the
stack it faults. -/
def Obligations.CallPushesReturnAddress : Prop :=
  ∀ (nnn : Addr12) (s : State),
    (s.depth < 16 → ∃ t, exec (.call nnn) s = .next t ∧ t.pc.toNat = nnn.toNat ∧ t.stack = s.pc :: s.stack ∧
      Frame s t [] [.pc, .stack] ∧ BytesSame s t) ∧
    (s.depth = 16 → ∃ f, exec (.call nnn) s = .fault f ∧ faultKind f = .stackOverflow)

/-- Calls to any targets succeed as long as no more than 16 entries result, the next call then faults, and as
many returns bring the stack back (95_test_vectors.md W10). -/
def Obligations.SixteenCallsThenOverflow : Prop :=
  ∀ (targets : List Addr12) (s : State), s.depth + targets.length = 16 →
    ∃ t, targets.foldl (fun r nnn => match r with
        | .next u => exec (.call nnn) u
        | stop => stop) (.next s : Result) = .next t ∧
      (∀ nnn, ∃ f, exec (.call nnn) t = .fault f ∧ faultKind f = .stackOverflow) ∧
      ∃ u, targets.foldl (fun r _ => match r with
        | .next v => exec .ret v
        | stop => stop) (.next t : Result) = .next u ∧
      u.stack = s.stack ∧ (∀ r, u.reg r = s.reg r) ∧ BytesSame s u

/-- A skip on a constant adds 2 to `pc` exactly when its condition holds, and changes nothing else (40_control.md,
SkipIfEq and SkipIfNotEq with a constant). That `pc` wraps modulo `0x10000`, which no run reaches, is decision D17
(log 14). -/
def Obligations.SkipOnConstant : Prop :=
  ∀ (x : RegId) (nn : Byte) (s : State),
    (∃ t, exec (.skipIfEqConst x nn) s = .next t ∧ (s.reg x = nn → t.pc = s.pc + 2) ∧ (s.reg x ≠ nn → t.pc = s.pc) ∧
      Frame s t [] [.pc] ∧ BytesSame s t) ∧
    (∃ t, exec (.skipIfNotEqConst x nn) s = .next t ∧ (s.reg x ≠ nn → t.pc = s.pc + 2) ∧ (s.reg x = nn → t.pc = s.pc) ∧
      Frame s t [] [.pc] ∧ BytesSame s t)

/-- A skip on two registers adds 2 to `pc` exactly when its condition holds, and changes nothing else (40_control.md,
SkipIfEq and SkipIfNotEq with a register). That `pc` wraps modulo `0x10000`, which no run reaches, is decision D17
(log 14). -/
def Obligations.SkipOnRegisters : Prop :=
  ∀ (x y : RegId) (s : State),
    (∃ t, exec (.skipIfEqReg x y) s = .next t ∧ (s.reg x = s.reg y → t.pc = s.pc + 2) ∧
      (s.reg x ≠ s.reg y → t.pc = s.pc) ∧ Frame s t [] [.pc] ∧ BytesSame s t) ∧
    (∃ t, exec (.skipIfNotEqReg x y) s = .next t ∧ (s.reg x ≠ s.reg y → t.pc = s.pc + 2) ∧
      (s.reg x = s.reg y → t.pc = s.pc) ∧ Frame s t [] [.pc] ∧ BytesSame s t)

/-- 40_control.md R61: JumpWithOffset sets `pc` to the whole sum of its base and `V[0]`, not masked. -/
def Obligations.JumpWithOffsetAddsRegisterZero : Prop :=
  ∀ (nnn : Addr12) (s : State),
    ∃ t, exec (.jumpWithOffset nnn) s = .next t ∧ t.pc.toNat = nnn.toNat + (s.reg 0).toNat ∧
      Frame s t [] [.pc] ∧ BytesSame s t

/-- Two instructions that leave the whole state as it is: a step at `e` whose word is `Jump(e)`
(70_reset_and_hazards.md, End of a run, decision D25), and a step at a KeyWait with no latched key
(70_reset_and_hazards.md, Hazards). -/
def Obligations.SelfJumpAndKeyWaitAreFixedPoints : Prop :=
  (∀ (s : State) (e : Addr12), s.status = .running → s.pc = e.setWidth 16 → fetch s = .ok (encode (.jump e)) →
    step s = .next s) ∧
  (∀ (s : State) (x : RegId), s.status = .running → s.latch = none → fetch s = .ok (encode (.keyWait x)) →
    step s = .next s)

/-! ### Arithmetic and logic -/

/-- 41_alu.md R66, R67 and R68: the two Sets and the constant Add write `V[x]` and nothing else, so VF keeps its
value unless `x = 15`. -/
def Obligations.SetAndAddConstant : Prop :=
  ∀ (x y : RegId) (nn : Byte) (s : State),
    (∃ t, exec (.setConst x nn) s = .next t ∧ t.reg x = nn ∧ Frame s t [x] [] ∧ BytesSame s t) ∧
    (∃ t, exec (.addConst x nn) s = .next t ∧ (t.reg x).toNat = ((s.reg x).toNat + nn.toNat) % 256 ∧
      Frame s t [x] [] ∧ BytesSame s t) ∧
    (∃ t, exec (.setReg x y) s = .next t ∧ t.reg x = s.reg y ∧ Frame s t [x] [] ∧ BytesSame s t)

/-- 41_alu.md R69, R70 and R71: the logic operations work bit by bit and write `V[x]` and nothing else. -/
def Obligations.LogicWorksBitByBit : Prop :=
  ∀ (x y : RegId) (s : State),
    (∃ t, exec (.or x y) s = .next t ∧
      (∀ k, (t.reg x).getLsbD k = ((s.reg x).getLsbD k || (s.reg y).getLsbD k)) ∧ Frame s t [x] [] ∧ BytesSame s t) ∧
    (∃ t, exec (.and x y) s = .next t ∧
      (∀ k, (t.reg x).getLsbD k = ((s.reg x).getLsbD k && (s.reg y).getLsbD k)) ∧ Frame s t [x] [] ∧ BytesSame s t) ∧
    (∃ t, exec (.xor x y) s = .next t ∧
      (∀ k, (t.reg x).getLsbD k = ((s.reg x).getLsbD k ^^ (s.reg y).getLsbD k)) ∧ Frame s t [x] [] ∧ BytesSame s t)

/-- Add with a register: the truncated sum, and the carry in VF when `x` is not 15; with `x = 15` the result
stays in VF (41_alu.md, decision D3; log 12). -/
def Obligations.AddRegisterCarries : Prop :=
  ∀ (x y : RegId) (s : State),
    ∃ t, exec (.addReg x y) s = .next t ∧ (t.reg x).toNat = ((s.reg x).toNat + (s.reg y).toNat) % 256 ∧
      (x ≠ 15 → t.reg 15 = if (s.reg x).toNat + (s.reg y).toNat > 255 then 1 else 0) ∧
      Frame s t [x, 15] [] ∧ BytesSame s t

/-- Sub and SubRev: the difference modulo 256, and not-borrow in VF when `x` is not 15; with `x = 15` the result
stays in VF (41_alu.md, decision D3; log 12). -/
def Obligations.SubtractionsBorrow : Prop :=
  ∀ (x y : RegId) (s : State),
    (∃ t, exec (.sub x y) s = .next t ∧ (t.reg x).toNat = ((s.reg x).toNat + 256 - (s.reg y).toNat) % 256 ∧
      (x ≠ 15 → t.reg 15 = if (s.reg x).toNat < (s.reg y).toNat then 0 else 1) ∧
      Frame s t [x, 15] [] ∧ BytesSame s t) ∧
    (∃ t, exec (.subRev x y) s = .next t ∧ (t.reg x).toNat = ((s.reg y).toNat + 256 - (s.reg x).toNat) % 256 ∧
      (x ≠ 15 → t.reg 15 = if (s.reg y).toNat < (s.reg x).toNat then 0 else 1) ∧
      Frame s t [x, 15] [] ∧ BytesSame s t)

/-- Shr and Shl shift `V[y]` by one into `V[x]`, with the bit shifted out in VF when `x` is not 15; with `x = 15`
the result stays in VF (41_alu.md, decision D3; log 12). -/
def Obligations.ShiftsMoveTheSourceRegister : Prop :=
  ∀ (x y : RegId) (s : State),
    (∃ t, exec (.shr x y) s = .next t ∧ (t.reg x).toNat = (s.reg y).toNat / 2 ∧
      (x ≠ 15 → (t.reg 15).toNat = (s.reg y).toNat % 2) ∧ Frame s t [x, 15] [] ∧ BytesSame s t) ∧
    (∃ t, exec (.shl x y) s = .next t ∧ (t.reg x).toNat = (s.reg y).toNat * 2 % 256 ∧
      (x ≠ 15 → (t.reg 15).toNat = (s.reg y).toNat / 128) ∧ Frame s t [x, 15] [] ∧ BytesSame s t)

/-- GetRandom writes a free byte masked by its constant, whatever the byte is, and draws one byte
(41_alu.md, decision D19; the free value and its counter are log 4). -/
def Obligations.RandomByteIsMasked : Prop :=
  ∀ (x : RegId) (nn : Byte) (s : State),
    ∃ t, exec (.getRandom x nn) s = .next t ∧ t.reg x = Config.rnd s.draws &&& nn ∧ t.draws = s.draws + 1 ∧
      (∀ k, (t.reg x).getLsbD k = true → nn.getLsbD k = true) ∧ Frame s t [x] [.draws] ∧ BytesSame s t

/-! ### The address register and memory -/

/-- 42_address.md R78 and R79: SetAddr loads `I`; AddAddr reduces the sum modulo `0x1000` and always writes VF,
1 past `0xFFF` and 0 otherwise, from the values before the instruction. -/
def Obligations.AddressRegisterLoadsAndAdds : Prop :=
  (∀ (nnn : Addr12) (s : State),
    ∃ t, exec (.setAddr nnn) s = .next t ∧ t.i.toNat = nnn.toNat ∧ Frame s t [] [.i] ∧ BytesSame s t) ∧
  (∀ (x : RegId) (s : State),
    ∃ t, exec (.addAddr x) s = .next t ∧ t.i.toNat = (s.i.toNat + (s.reg x).toNat) % 0x1000 ∧
      t.reg 15 = (if s.i.toNat + (s.reg x).toNat > 0xFFF then 1 else 0) ∧ Frame s t [15] [.i] ∧ BytesSame s t)

/-- LoadGlyph points `I` at the glyph of a digit up to 15, with the glyph base at 0 (decision D8; log 13), and
faults on a greater value; the form of the fault's record is decision D11 (log 7). -/
def Obligations.LoadGlyphPointsAtDigit : Prop :=
  ∀ (x : RegId) (s : State),
    ((s.reg x).toNat ≤ 15 → ∃ t, exec (.loadGlyph x) s = .next t ∧ t.i.toNat = 5 * (s.reg x).toNat ∧
      Frame s t [] [.i] ∧ BytesSame s t) ∧
    (15 < (s.reg x).toNat →
      exec (.loadGlyph x) s = .fault (.invalidGlyphIndex (s.pc - 2) (encode (.loadGlyph x)) (s.reg x)))

/-- StoreBcd stores hundreds, tens and units at `I`, `I + 1` and `I + 2` when all three have storage, changes no
other byte, and sets `dirty` in the framebuffer only (42_address.md). The order is decision D22, the addresses are
not wrapped (decision D16), the framebuffer's are decision D6, and `dirty` is set even when no byte changes
(90_conflicts.md C10): the spec's own choices (log 10, log 14). -/
def Obligations.StoreBcdStoresDigits : Prop :=
  ∀ (x : RegId) (s : State), (∀ k, k < 3 → stored (memOperand s + k) = true) →
    ∃ t, exec (.storeBcd x) s = .next t ∧
      (∃ h d u : Byte, memRead t (memOperand s) = .ok h ∧ memRead t (memOperand s + 1) = .ok d ∧
        memRead t (memOperand s + 2) = .ok u ∧ d.toNat < 10 ∧ u.toNat < 10 ∧
        h.toNat * 100 + d.toNat * 10 + u.toNat = (s.reg x).toNat) ∧
      t.dirty = (s.dirty || decide (0xF00 ≤ memOperand s)) ∧
      Frame s t [] [.dirty] ∧ BytesSameOutside s t (memOperand s) 3

/-- StoreBytes stores `V[0]` to `V[x]` from `I` on when every address has storage, changes no other byte, leaves
`I`, and sets `dirty` in the framebuffer only (42_address.md). The order is decision D22, the addresses are not
wrapped (decision D16), the framebuffer's are decision D6, and `dirty` is set even when no byte changes
(90_conflicts.md C10): the spec's own choices (log 10, log 14). -/
def Obligations.StoreBytesStoresRegisters : Prop :=
  ∀ (x : RegId) (s : State), (∀ k, k ≤ x.val → stored (memOperand s + k) = true) →
    ∃ t, exec (.storeBytes x) s = .next t ∧
      (∀ r : RegId, r ≤ x → memRead t (memOperand s + r.val) = .ok (s.reg r)) ∧
      t.dirty = (s.dirty || decide (0xF00 ≤ memOperand s)) ∧
      Frame s t [] [.dirty] ∧ BytesSameOutside s t (memOperand s) (x.val + 1)

/-- LoadBytes loads `V[0]` to `V[x]` from `I` on when every address is readable, and changes nothing else, `I`
and `dirty` included (42_address.md, decision D22 for the order; log 16). The addresses are not wrapped
(decision D16; log 14). -/
def Obligations.LoadBytesLoadsRegisters : Prop :=
  ∀ (x : RegId) (s : State), (∀ k, k ≤ x.val → ∃ u, memRead s (memOperand s + k) = .ok u) →
    ∃ t, exec (.loadBytes x) s = .next t ∧
      (∀ r : RegId, r ≤ x → memRead s (memOperand s + r.val) = .ok (t.reg r)) ∧
      (∀ r : RegId, x < r → t.reg r = s.reg r) ∧ Frame s t (regsWritten (.loadBytes x)) [] ∧ BytesSame s t

/-- The first address that fails, in ascending order, is the one a multi-byte access reports, as the fault of
its region with the record of the instruction. The order is decision D22 and the unwrapped addresses decision
D16 (log 14); the form of the record is decision D11 (log 7). -/
def Obligations.FirstFailingAddressIsReported : Prop :=
  (∀ (x : RegId) (s : State) (k : Nat) (e : AccessFault), k ≤ x.val →
    (∀ j, j < k → ∃ u, memRead s (memOperand s + j) = .ok u) → memRead s (memOperand s + k) = .error e →
    exec (.loadBytes x) s = .fault (e.toFault (s.pc - 2) (some (encode (.loadBytes x))))) ∧
  (∀ (x y : RegId) (n : Fin 16) (s : State) (k : Nat) (e : AccessFault), k < n.val →
    (∀ j, j < k → ∃ u, memRead s (memOperand s + j) = .ok u) → memRead s (memOperand s + k) = .error e →
    exec (.draw x y n) s = .fault (e.toFault (s.pc - 2) (some (encode (.draw x y n))))) ∧
  (∀ (x : RegId) (s : State) (k : Nat) (u : Byte) (e : AccessFault), k ≤ x.val →
    (∀ j, j < k → stored (memOperand s + j) = true) → memWrite s (memOperand s + k) u = .error e →
    exec (.storeBytes x) s = .fault (e.toFault (s.pc - 2) (some (encode (.storeBytes x))))) ∧
  (∀ (x : RegId) (s : State) (k : Nat) (u : Byte) (e : AccessFault), k < 3 →
    (∀ j, j < k → stored (memOperand s + j) = true) → memWrite s (memOperand s + k) u = .error e →
    exec (.storeBcd x) s = .fault (e.toFault (s.pc - 2) (some (encode (.storeBcd x)))))

/-! ### Display -/

/-- ClearScreen zeroes all 256 framebuffer bytes, sets `dirty`, and changes nothing else (43_display.md, Framebuffer
operations and ClearScreen). The framebuffer addresses are decision D6 (log 10, log 14). -/
def Obligations.ClearScreenZeroesTheFramebuffer : Prop :=
  ∀ s : State,
    ∃ t, exec .clearScreen s = .next t ∧ (∀ k, k < 256 → memRead t (0xF00 + k) = .ok 0) ∧ t.dirty = true ∧
      Frame s t [] [.dirty] ∧ BytesSameOutside s t 0xF00 256

/-- A draw flips exactly the pixels the sprite covers, wrapping in both directions, sets VF to whether any of
them was lit, sets `dirty`, and changes nothing else; the sprite is read whole before any pixel changes
(43_display.md, Framebuffer operations and Draw). The spec's own choices in it are the operands (decision D4),
reading before drawing (D5), the framebuffer's addresses (D6; log 10), the order of the pixels (D7 and
90_conflicts.md C3) and unwrapped source addresses (D16) (log 14). -/
def Obligations.DrawFlipsTheSpritePixels : Prop :=
  ∀ (x y : RegId) (n : Fin 16) (s : State) (rows : List Byte), rows.length = n.val →
    (∀ k (h : k < rows.length), memRead s (memOperand s + k) = .ok rows[k]) →
    ∃ t, exec (.draw x y n) s = .next t ∧
      (∀ c r, c < 64 → r < 32 →
        t.pixel c r = (s.pixel c r ^^ spritePixel rows (s.reg x).toNat (s.reg y).toNat c r)) ∧
      ((∃ c r, c < 64 ∧ r < 32 ∧ s.pixel c r = true ∧
          spritePixel rows (s.reg x).toNat (s.reg y).toNat c r = true) → t.reg 15 = 1) ∧
      (¬ (∃ c r, c < 64 ∧ r < 32 ∧ s.pixel c r = true ∧
          spritePixel rows (s.reg x).toNat (s.reg y).toNat c r = true) → t.reg 15 = 0) ∧
      t.dirty = true ∧ Frame s t [15] [.dirty] ∧ BytesSameOutside s t 0xF00 256

/-- Drawing over a blank display reports no collision; drawing the same sprite again at the
same place reports one when the sprite has a set bit, and leaves the display as it was before the first
(43_display.md, Framebuffer operations; 95_test_vectors.md W11). -/
def Obligations.DrawingTwiceErases : Prop :=
  ∀ (s : State) (cx cy : Byte) (rows : List Byte), rows.length ≤ 15 →
    (∀ k, k < 256 → (fbDraw (fbDraw s cx cy rows).2 cx cy rows).2.mem.fbGet k = s.mem.fbGet k) ∧
    ((∀ k, k < 256 → s.mem.fbGet k = 0) →
      (fbDraw s cx cy rows).1 = false ∧
      ((∃ u ∈ rows, u ≠ 0) → (fbDraw (fbDraw s cx cy rows).2 cx cy rows).1 = true) ∧
      ((∀ u ∈ rows, u = 0) → (fbDraw (fbDraw s cx cy rows).2 cx cy rows).1 = false))

/-! ### Input, timers and the host -/

/-- The key skips add 2 to `pc` exactly when the key named by `V[x]` is down, or up, and change nothing else; a
value above 15 faults (44_input_timer.md, decision D18); the form of the fault's record is decision D11 (log 7),
and that `pc` wraps modulo `0x10000`, which no run reaches, is decision D17 (log 14). -/
def Obligations.KeySkipsReadThePressedState : Prop :=
  ∀ (x : RegId) (s : State),
    (∀ k : KeyId, (s.reg x).toNat = k.val →
      (∃ t, exec (.skipIfKeyPressed x) s = .next t ∧ (t.pc = if s.isPressed k then s.pc + 2 else s.pc) ∧
        Frame s t [] [.pc] ∧ BytesSame s t) ∧
      (∃ t, exec (.skipIfKeyNotPressed x) s = .next t ∧ (t.pc = if s.isPressed k then s.pc else s.pc + 2) ∧
        Frame s t [] [.pc] ∧ BytesSame s t)) ∧
    (15 < (s.reg x).toNat →
      exec (.skipIfKeyPressed x) s = .fault (.invalidKeyIndex (s.pc - 2) (encode (.skipIfKeyPressed x)) (s.reg x)) ∧
      exec (.skipIfKeyNotPressed x) s =
        .fault (.invalidKeyIndex (s.pc - 2) (encode (.skipIfKeyNotPressed x)) (s.reg x)))

/-- With no latched key KeyWait goes back on `pc` by 2 and changes nothing else; with one it puts its id in `V[x]`
and clears the latch, and changes nothing else (44_input_timer.md, KeyWait). That `pc` wraps modulo `0x10000`,
which no run reaches, is decision D17 (log 14). -/
def Obligations.KeyWaitConsumesTheLatch : Prop :=
  ∀ (x : RegId) (s : State),
    (s.latch = none → ∃ t, exec (.keyWait x) s = .next t ∧ t.pc = s.pc - 2 ∧ t.latch = none ∧
      Frame s t [] [.pc] ∧ BytesSame s t) ∧
    (∀ k, s.latch = some k → ∃ t, exec (.keyWait x) s = .next t ∧ (t.reg x).toNat = k.val ∧ t.latch = none ∧
      t.pc = s.pc ∧ Frame s t [x] [.latch] ∧ BytesSame s t)

/-- 44_input_timer.md R93, R95 and R96: the timer instructions move one byte between a register and a timer and
change nothing else. -/
def Obligations.TimerInstructionsMoveOneByte : Prop :=
  ∀ (x : RegId) (s : State),
    (∃ t, exec (.getDelay x) s = .next t ∧ t.reg x = s.dt ∧ Frame s t [x] [] ∧ BytesSame s t) ∧
    (∃ t, exec (.setDelay x) s = .next t ∧ t.dt = s.reg x ∧ Frame s t [] [.dt] ∧ BytesSame s t) ∧
    (∃ t, exec (.setSound x) s = .next t ∧ t.st = s.reg x ∧ Frame s t [] [.st] ∧ BytesSame s t)

/-- A tick takes 1 from each timer that is not 0, floored at 0, returns nothing, and changes nothing else
(60_exceptions.md, Timers); that a faulted block refuses it is decision D12 (log 14). -/
def Obligations.TickCountsDown : Prop :=
  (∀ s, s.status = .running → ∃ t, hostCall .tick s = (t, .ok) ∧ t.dt.toNat = s.dt.toNat - 1 ∧
    t.st.toNat = s.st.toNat - 1 ∧ Frame s t [] [.dt, .st] ∧ BytesSame s t) ∧
  (∀ s f, s.status = .faulted f → hostCall .tick s = (s, .refused))

/-- A key down is pressed and latched; a key up is released, and unlatched only if it was the latched one; a code
above 15 does nothing; nothing else changes (60_exceptions.md, Input latch). The code is a natural number, the
model's choice (log 9). -/
def Obligations.KeyEventsPressAndLatch : Prop :=
  (∀ (s : State) (code : Nat), s.status = .running → 15 < code →
    hostCall (.keydown code) s = (s, .ok) ∧ hostCall (.keyup code) s = (s, .ok)) ∧
  (∀ (s : State) (k : KeyId), s.status = .running →
    ∃ t, hostCall (.keydown k.val) s = (t, .ok) ∧ t.isPressed k = true ∧ t.latch = some k ∧
      (∀ j, j ≠ k → t.isPressed j = s.isPressed j) ∧ Frame s t [] [.pressed, .latch] ∧ BytesSame s t) ∧
  (∀ (s : State) (k : KeyId), s.status = .running →
    ∃ t, hostCall (.keyup k.val) s = (t, .ok) ∧ t.isPressed k = false ∧
      (s.latch = some k → t.latch = none) ∧ (s.latch ≠ some k → t.latch = s.latch) ∧
      (∀ j, j ≠ k → t.isPressed j = s.isPressed j) ∧ Frame s t [] [.pressed, .latch] ∧ BytesSame s t)

/-- `load` copies all the bytes when they fall in RAM, and otherwise reports a bounds violation and writes
nothing; it never changes anything but RAM (60_exceptions.md, decision D20). The address is a natural number
(log 9). -/
def Obligations.LoadCopiesAllOrNothing : Prop :=
  ∀ (s : State) (bytes : List Byte) (address : Nat), s.status = .running →
    (0x200 ≤ address → address + bytes.length ≤ 0xEA0 →
      ∃ t, hostCall (.load bytes address) s = (t, .ok) ∧
        (∀ k (h : k < bytes.length), memRead t (address + k) = .ok bytes[k]) ∧
        Frame s t [] [] ∧ BytesSameOutside s t address bytes.length) ∧
    (address < 0x200 ∨ 0xEA0 < address + bytes.length →
      hostCall (.load bytes address) s = (s, .boundsViolation))

/-- `display()` returns `FB[0]` to `FB[255]` in order and changes nothing; `poll_and_clear_dirty()` returns `dirty`
and clears it, and changes nothing else (60_exceptions.md, Display observation). `FB[k]` at `0xF00 + k`, and the
order of the bytes, are decision D6 (log 10, log 14). -/
def Obligations.DisplayAndPoll : Prop :=
  ∀ s : State, s.status = .running →
    (∃ view, hostCall .display s = (s, .bytes view) ∧ view.length = 256 ∧
      ∀ k (h : k < view.length), memRead s (0xF00 + k) = .ok view[k]) ∧
    (∃ t, hostCall .pollAndClearDirty s = (t, .bit s.dirty) ∧ t.dirty = false ∧ Frame s t [] [.dirty] ∧ BytesSame s t)
end

