-- ==== Sys2Proof/Laws/Decode.lean ====
section
/-! SUPPORT. The laws of fields, masks and bytes of an instruction word, in the arithmetic that decoder and
encoder share. -/

namespace Sys2Proof

/-! ### Fields -/

theorem field_lt (w : Word) (lo width : Nat) : field w lo width < 2 ^ width := Nat.mod_lt _ (Nat.two_pow_pos _)

/-- A field is the bits the spec names (00_scope.md §3). -/
theorem toNat_extractLsb'_eq_field (w : Word) (lo width : Nat) : (w.extractLsb' lo width).toNat = field w lo width := by
  simp [field, BitVec.extractLsb'_toNat, Nat.shiftRight_eq_div_pow]

theorem fieldX_val (w : Word) : (fieldX w).val = field w 8 4 := rfl
theorem fieldY_val (w : Word) : (fieldY w).val = field w 4 4 := rfl
theorem fieldN_val (w : Word) : (fieldN w).val = field w 0 4 := rfl

theorem fieldNN_toNat (w : Word) : (fieldNN w).toNat = field w 0 8 := by
  have := field_lt w 0 8
  simp [fieldNN]; omega

theorem fieldNNN_toNat (w : Word) : (fieldNNN w).toNat = field w 0 12 := by
  have := field_lt w 0 12
  simp [fieldNNN]; omega

/-- The fields of a word given by its number. -/
theorem field_ofNat (n lo width : Nat) (h : n < 65536) :
    field (BitVec.ofNat 16 n) lo width = n / 2 ^ lo % 2 ^ width := by
  simp [field, Nat.mod_eq_of_lt h]

/-- A word is its major opcode and its 12-bit field. -/
theorem toNat_eq_fields (w : Word) : w.toNat = field w 12 4 * 0x1000 + field w 0 12 := by
  have := w.isLt
  simp only [field]; omega

/-! ### Masks -/

theorem and_shiftLeft (n m k : Nat) : n &&& (m <<< k) = ((n >>> k) &&& m) <<< k := by
  refine Nat.eq_of_testBit_eq fun i => ?_
  simp only [Nat.testBit_and, Nat.testBit_shiftLeft, Nat.testBit_shiftRight]
  by_cases h : k ≤ i
  · simp [h, Nat.add_sub_cancel' h]
  · simp [h]

theorem toNat_and_F000 (w : Word) : (w &&& 0xF000#16).toNat = field w 12 4 * 0x1000 := by
  have h := and_shiftLeft w.toNat 15 12
  have hm : w.toNat >>> 12 &&& 15 = w.toNat >>> 12 % 16 := Nat.and_two_pow_sub_one_eq_mod _ 4
  rw [hm, Nat.shiftRight_eq_div_pow] at h
  rw [BitVec.toNat_and]
  exact h.trans (by rw [Nat.shiftLeft_eq]; rfl)

theorem toNat_and_low (w : Word) (k : Nat) (hk : k ≤ 12) (m : Nat) (hm : m = 0xF000 + (2 ^ k - 1)) :
    (w &&& BitVec.ofNat 16 m).toNat = field w 12 4 * 0x1000 + field w 0 k := by
  have hk2 : (2 : Nat) ^ k ≤ 2 ^ 12 := Nat.pow_le_pow_right (by decide) hk
  have hp := Nat.two_pow_pos k
  have hsplit : (0xF000 : Nat) + (2 ^ k - 1) = 15 <<< 12 ||| (2 ^ k - 1) := by
    rw [← Nat.shiftLeft_add_eq_or_of_lt (by omega)]
    rfl
  have hF := toNat_and_F000 w
  simp only [BitVec.toNat_and, BitVec.toNat_ofNat] at hF ⊢
  rw [Nat.mod_eq_of_lt (by omega : m < 2 ^ 16), hm, hsplit, Nat.and_or_distrib_left,
    show (15 <<< 12 : Nat) = 0xF000 % 2 ^ 16 by decide, hF, Nat.and_two_pow_sub_one_eq_mod]
  have hlt : w.toNat % 2 ^ k < 2 ^ 12 := Nat.lt_of_lt_of_le (Nat.mod_lt _ hp) hk2
  have h := (Nat.shiftLeft_add_eq_or_of_lt hlt (field w 12 4)).symm
  rw [Nat.shiftLeft_eq] at h
  exact h.trans (by simp [field])

theorem toNat_and_F00F (w : Word) : (w &&& 0xF00F#16).toNat = field w 12 4 * 0x1000 + field w 0 4 :=
  toNat_and_low w 4 (by decide) _ rfl

theorem toNat_and_F0FF (w : Word) : (w &&& 0xF0FF#16).toNat = field w 12 4 * 0x1000 + field w 0 8 :=
  toNat_and_low w 8 (by decide) _ rfl

/-- A word fits a row of mask `F000` exactly when its major opcode is the row's. -/
theorem and_F000_eq_iff (w : Word) (o : Nat) (ho : o < 16) :
    w &&& 0xF000#16 = BitVec.ofNat 16 (o * 0x1000) ↔ fieldO w = o := by
  have h := toNat_and_F000 w
  have hl := field_lt w 12 4
  unfold fieldO
  refine ⟨fun e => ?_, fun e => BitVec.eq_of_toNat_eq (h.trans ?_)⟩
  · rw [e, BitVec.toNat_ofNat] at h; omega
  · rw [e, BitVec.toNat_ofNat]; omega

/-- A word fits a row of mask `F00F` exactly when its major opcode and low nibble are the row's. -/
theorem and_F00F_eq_iff (w : Word) (o n : Nat) (ho : o < 16) (hn : n < 16) :
    w &&& 0xF00F#16 = BitVec.ofNat 16 (o * 0x1000 + n) ↔ fieldO w = o ∧ field w 0 4 = n := by
  have h := toNat_and_F00F w
  have hl := field_lt w 12 4
  have hl' := field_lt w 0 4
  unfold fieldO
  refine ⟨fun e => ?_, fun e => BitVec.eq_of_toNat_eq (h.trans ?_)⟩
  · rw [e, BitVec.toNat_ofNat] at h; omega
  · rw [e.1, e.2, BitVec.toNat_ofNat]; omega

/-- A word fits a row of mask `F0FF` exactly when its major opcode and low byte are the row's. -/
theorem and_F0FF_eq_iff (w : Word) (o n : Nat) (ho : o < 16) (hn : n < 256) :
    w &&& 0xF0FF#16 = BitVec.ofNat 16 (o * 0x1000 + n) ↔ fieldO w = o ∧ field w 0 8 = n := by
  have h := toNat_and_F0FF w
  have hl := field_lt w 12 4
  have hl' := field_lt w 0 8
  unfold fieldO
  refine ⟨fun e => ?_, fun e => BitVec.eq_of_toNat_eq (h.trans ?_)⟩
  · rw [e, BitVec.toNat_ofNat] at h; omega
  · rw [e.1, e.2, BitVec.toNat_ofNat]; omega

/-! ### Packed words -/

theorem packA_toNat (o : Nat) (nnn : Addr12) (ho : o < 16) : (packA o nnn).toNat = o * 0x1000 + nnn.toNat := by
  have := nnn.isLt
  rw [packA, BitVec.toNat_ofNat]; omega

theorem packXK_toNat (o : Nat) (x : RegId) (nn : Byte) (ho : o < 16) :
    (packXK o x nn).toNat = o * 0x1000 + x.val * 0x100 + nn.toNat := by
  have := nn.isLt
  have := x.isLt
  rw [packXK, BitVec.toNat_ofNat]; omega

theorem packXYN_toNat (o : Nat) (x y n : Fin 16) (ho : o < 16) :
    (packXYN o x.val y.val n.val).toNat = o * 0x1000 + x.val * 0x100 + y.val * 0x10 + n.val := by
  have := x.isLt
  have := y.isLt
  have := n.isLt
  rw [packXYN, BitVec.toNat_ofNat]; omega

/-- The fields of a format A word. -/
theorem fields_packA (o : Nat) (nnn : Addr12) (ho : o < 16) :
    fieldO (packA o nnn) = o ∧ fieldNNN (packA o nnn) = nnn := by
  have := nnn.isLt
  refine ⟨?_, BitVec.eq_of_toNat_eq ?_⟩
  · rw [fieldO, packA, field_ofNat _ _ _ (by omega)]; omega
  · rw [fieldNNN_toNat, packA, field_ofNat _ _ _ (by omega)]; omega

/-- The fields of a format XK or XS word. -/
theorem fields_packXK (o : Nat) (x : RegId) (nn : Byte) (ho : o < 16) :
    fieldO (packXK o x nn) = o ∧ fieldX (packXK o x nn) = x ∧ fieldNN (packXK o x nn) = nn ∧
      field (packXK o x nn) 0 8 = nn.toNat := by
  have := nn.isLt
  have := x.isLt
  refine ⟨?_, Fin.ext ?_, BitVec.eq_of_toNat_eq ?_, ?_⟩
  · rw [fieldO, packXK, field_ofNat _ _ _ (by omega)]; omega
  · rw [fieldX_val, packXK, field_ofNat _ _ _ (by omega)]; omega
  · rw [fieldNN_toNat, packXK, field_ofNat _ _ _ (by omega)]; omega
  · rw [packXK, field_ofNat _ _ _ (by omega)]; omega

/-- The fields of a format XYS or XYN word. -/
theorem fields_packXYN (o : Nat) (x y : RegId) (n : Nat) (ho : o < 16) (hn : n < 16) :
    fieldO (packXYN o x.val y.val n) = o ∧ fieldX (packXYN o x.val y.val n) = x ∧
      fieldY (packXYN o x.val y.val n) = y ∧ field (packXYN o x.val y.val n) 0 4 = n := by
  have := y.isLt
  have := x.isLt
  refine ⟨?_, Fin.ext ?_, Fin.ext ?_, ?_⟩
  · rw [fieldO, packXYN, field_ofNat _ _ _ (by omega)]; omega
  · rw [fieldX_val, packXYN, field_ofNat _ _ _ (by omega)]; omega
  · rw [fieldY_val, packXYN, field_ofNat _ _ _ (by omega)]; omega
  · rw [packXYN, field_ofNat _ _ _ (by omega)]; omega

/-- A word is packed from its fields, in each of the three shapes. -/
theorem packA_of_fields (w : Word) {o : Nat} (ho : fieldO w = o) : packA o (fieldNNN w) = w := by
  have := w.isLt
  have := fieldNNN_toNat w
  simp only [fieldO, field] at *
  apply BitVec.eq_of_toNat_eq
  rw [packA_toNat _ _ (by omega)]; omega

theorem packXK_of_fields (w : Word) {o : Nat} {nn : Byte} (ho : fieldO w = o) (hn : field w 0 8 = nn.toNat) :
    packXK o (fieldX w) nn = w := by
  have := w.isLt
  have := fieldX_val w
  simp only [fieldO, field] at *
  apply BitVec.eq_of_toNat_eq
  rw [packXK_toNat _ _ _ (by omega)]; omega

theorem packXYN_of_fields (w : Word) {o n : Nat} (ho : fieldO w = o) (hn : field w 0 4 = n) :
    packXYN o (fieldX w).val (fieldY w).val n = w := by
  have := w.isLt
  have := fieldX_val w
  have := fieldY_val w
  have hlt := field_lt w 0 4
  simp only [fieldO, field] at *
  apply BitVec.eq_of_toNat_eq
  rw [show n = (⟨n, by omega⟩ : Fin 16).val from rfl, packXYN_toNat _ _ _ _ (by omega)]
  simp only
  omega

/-! ### Bytes -/

theorem wordHi_toNat (w : Word) : (wordHi w).toNat = w.toNat / 256 := by
  have := w.isLt
  simp [wordHi]; omega

theorem wordLo_toNat (w : Word) : (wordLo w).toNat = w.toNat % 256 := by
  simp [wordLo]

theorem wordOfBytes_toNat (hi lo : Byte) : (wordOfBytes hi lo).toNat = hi.toNat * 256 + lo.toNat := by
  have := hi.isLt
  have := lo.isLt
  simp [wordOfBytes]; omega

/-- A word laid out high byte first and read back (30_encoding.md R41). -/
@[simp] theorem wordOfBytes_wordHi_wordLo (w : Word) : wordOfBytes (wordHi w) (wordLo w) = w := by
  apply BitVec.eq_of_toNat_eq
  rw [wordOfBytes_toNat, wordHi_toNat, wordLo_toNat]
  omega

end Sys2Proof
end

