-- ==== Sys2Proof/Laws/Memory.lean ====
section
/-! SUPPORT. The laws of the byte store: read after write, at one address and over a run of addresses, and
that every memory operation keeps the canonical form and the storage bound. -/

namespace Sys2Proof.Machine

@[simp] theorem Memory.get_nil (a : Nat) : Memory.get [] a = Memory.unlisted := rfl

theorem Memory.get_filter (m : Memory) (a b : Nat) :
    Memory.get (m.filter (fun c => c.1 != a)) b = if b = a then Memory.unlisted else m.get b := by
  induction m with
  | nil => simp
  | cons c rest ih =>
    obtain ⟨d, u⟩ := c
    by_cases hd : d = a
    · subst hd
      by_cases hb : b = d
      · subst hb; simpa using ih
      · simp [ih, hb, Memory.get, Ne.symm hb]
    · have hd' : (d != a) = true := by simp [hd]
      simp only [List.filter_cons, hd', if_true, Memory.get, ih]
      split <;> split <;> simp_all

theorem Memory.get_insert (m : Memory) (a b : Nat) (u : Byte) (h : m.all (fun c => c.1 != a) = true) :
    Memory.get (m.insert (a, u)) b = if b = a then u else m.get b := by
  induction m with
  | nil => by_cases hb : b = a <;> simp [Memory.insert, Memory.get, hb, Ne.symm]
  | cons c rest ih =>
    obtain ⟨d, w⟩ := c
    simp only [List.all_cons, Bool.and_eq_true, bne_iff_ne] at h
    have ih := ih h.2
    by_cases hb : b = a
    · subst hb
      unfold Memory.insert
      split
      · simp [Memory.get]
      · simp [Memory.get, h.1, ih]
    · unfold Memory.insert
      split
      · simp [Memory.get, Ne.symm hb]
      · simp [Memory.get, ih, hb]

theorem Memory.all_ne_filter (m : Memory) (a : Nat) :
    (m.filter (fun c => c.1 != a)).all (fun c => c.1 != a) = true := by
  simp [List.all_eq_true]

/-- Read after write: the written byte at its address, every other byte as before. -/
theorem Memory.get_set (m : Memory) (a b : Nat) (u : Byte) :
    (m.set a u).get b = if b = a then u else m.get b := by
  unfold Memory.set
  split
  · rename_i hu; rw [Memory.get_filter]; simp [hu]
  · rw [Memory.get_insert _ _ _ _ (m.all_ne_filter a), Memory.get_filter]
    split <;> simp_all

@[simp] theorem Memory.get_set_same (m : Memory) (a : Nat) (u : Byte) : (m.set a u).get a = u := by
  simp [Memory.get_set]

theorem Memory.get_set_of_ne (m : Memory) {a b : Nat} (u : Byte) (h : b ≠ a) : (m.set a u).get b = m.get b := by
  simp [Memory.get_set, h]

/-- Read after a run of writes: inside the run the written byte, outside it as before. -/
theorem Memory.get_setMany (us : List Byte) (m : Memory) (a b : Nat) :
    (m.setMany a us).get b = if h : a ≤ b ∧ b < a + us.length then us[b - a]'(by omega) else m.get b := by
  induction us generalizing m a with
  | nil => rw [dif_neg (by simp only [List.length_nil]; omega)]; rfl
  | cons u us ih =>
    simp only [Memory.setMany, ih, Memory.get_set, List.length_cons]
    by_cases hb : b = a
    · subst hb
      have h : ¬ (b + 1 ≤ b ∧ b < b + 1 + us.length) := by omega
      simp [h]
    · by_cases h : a + 1 ≤ b ∧ b < a + 1 + us.length
      · have h' : a ≤ b ∧ b < a + (us.length + 1) := by omega
        have e : b - a = (b - (a + 1)) + 1 := by omega
        simp only [h, h', and_self, dite_true, e, List.getElem_cons_succ]
      · have h' : ¬ (a ≤ b ∧ b < a + (us.length + 1)) := by omega
        rw [dif_neg h, dif_neg h', if_neg hb]

/-! ### The canonical form -/

theorem Memory.wf_iff (m : Memory) :
    m.wf = true ↔ m.Pairwise (fun c d => c.1 < d.1) ∧ ∀ c ∈ m, c.2 ≠ Memory.unlisted := by
  have rising_iff : ∀ (rest : Memory) (lo : Nat),
      Memory.rising lo rest = true ↔ (∀ c ∈ rest, lo < c.1) ∧ rest.Pairwise (fun c d => c.1 < d.1) := by
    intro rest
    induction rest with
    | nil => simp [Memory.rising]
    | cons c rest ih =>
      intro lo
      obtain ⟨a, u⟩ := c
      simp only [Memory.rising, Bool.and_eq_true, decide_eq_true_eq, ih, List.mem_cons, forall_eq_or_imp,
        List.pairwise_cons]
      constructor
      · rintro ⟨h1, h2, h3⟩
        exact ⟨⟨h1, fun d hd => Nat.lt_trans h1 (h2 d hd)⟩, h2, h3⟩
      · rintro ⟨⟨h1, _⟩, h2, h3⟩
        exact ⟨h1, h2, h3⟩
  cases m with
  | nil => simp [Memory.wf]
  | cons c rest => simp [Memory.wf, rising_iff]

theorem Memory.mem_insert (m : Memory) (c d : Host.Cell) : d ∈ m.insert c ↔ d = c ∨ d ∈ m := by
  induction m with
  | nil => simp [Memory.insert]
  | cons e rest ih =>
    unfold Memory.insert
    split
    · simp
    · simp only [List.mem_cons, ih]
      constructor <;> rintro (h | h | h) <;> simp_all

theorem Memory.pairwise_insert (m : Memory) (c : Host.Cell) (h : m.Pairwise (fun c d => c.1 < d.1))
    (hc : m.all (fun d => d.1 != c.1) = true) : (m.insert c).Pairwise (fun c d => c.1 < d.1) := by
  induction m with
  | nil => simp [Memory.insert]
  | cons e rest ih =>
    simp only [List.all_cons, Bool.and_eq_true, bne_iff_ne] at hc
    rw [List.pairwise_cons] at h
    unfold Memory.insert
    split
    · rename_i hlt
      refine List.pairwise_cons.2 ⟨?_, List.pairwise_cons.2 h⟩
      intro d hd
      rcases List.mem_cons.1 hd with rfl | hd
      · exact hlt
      · exact Nat.lt_trans hlt (h.1 d hd)
    · rename_i hge
      refine List.pairwise_cons.2 ⟨?_, ih h.2 hc.2⟩
      intro d hd
      rcases (Memory.mem_insert rest c d).1 hd with rfl | hd
      · have := hc.1; omega
      · exact h.1 d hd

/-- A write keeps the canonical form. -/
theorem Memory.wf_set (m : Memory) (a : Nat) (u : Byte) (h : m.wf = true) : (m.set a u).wf = true := by
  rw [Memory.wf_iff] at h ⊢
  have hf := h.1.filter (fun c => c.1 != a)
  unfold Memory.set
  split
  · exact ⟨hf, fun c hc => h.2 c (List.mem_filter.1 hc).1⟩
  · rename_i hu
    refine ⟨Memory.pairwise_insert _ _ hf (m.all_ne_filter a), ?_⟩
    intro c hc
    rcases (Memory.mem_insert _ _ _).1 hc with rfl | hc
    · exact hu
    · exact h.2 c (List.mem_filter.1 hc).1

/-- A run of writes keeps the canonical form. -/
theorem Memory.wf_setMany (us : List Byte) (m : Memory) (a : Nat) (h : m.wf = true) : (m.setMany a us).wf = true := by
  induction us generalizing m a with
  | nil => exact h
  | cons u us ih => exact ih _ _ (Memory.wf_set m a u h)

/-- A write at an address that has storage keeps every cell at one. -/
theorem Memory.inStorage_set (m : Memory) (a : Nat) (u : Byte) (ha : stored a = true) (h : m.inStorage = true) :
    (m.set a u).inStorage = true := by
  simp only [Memory.inStorage, List.all_eq_true] at h ⊢
  intro c hc
  unfold Memory.set at hc
  split at hc
  · exact h c (List.mem_filter.1 hc).1
  · rcases (Memory.mem_insert _ _ _).1 hc with rfl | hc
    · exact ha
    · exact h c (List.mem_filter.1 hc).1

/-- A run of writes at addresses that have storage keeps every cell at one. -/
theorem Memory.inStorage_setMany (us : List Byte) (m : Memory) (a : Nat)
    (ha : ∀ k, k < us.length → stored (a + k) = true) (h : m.inStorage = true) :
    (m.setMany a us).inStorage = true := by
  induction us generalizing m a with
  | nil => exact h
  | cons u us ih =>
    refine ih _ _ (fun k hk => ?_) (Memory.inStorage_set m a u (by simpa using ha 0 (by simp)) h)
    have := ha (k + 1) (by simpa using hk)
    rwa [show a + 1 + k = a + (k + 1) by omega]

/-- An address below every cell reads as unlisted. -/
theorem Memory.get_of_lt (m : Memory) (a : Nat) (h : ∀ c ∈ m, a < c.1) : m.get a = Memory.unlisted := by
  induction m with
  | nil => rfl
  | cons c rest ih =>
    have hc := h c (by simp)
    simp [Memory.get, show c.1 ≠ a by omega, ih fun d hd => h d (by simp [hd])]

/-- Equal reads make equal lists: the canonical form is canonical. -/
theorem Memory.eq_of_get_eq (m n : Memory) (hm : m.wf = true) (hn : n.wf = true)
    (h : ∀ a, m.get a = n.get a) : m = n := by
  rw [Memory.wf_iff] at hm hn
  obtain ⟨sm, um⟩ := hm
  obtain ⟨sn, un⟩ := hn
  induction m generalizing n with
  | nil =>
    cases n with
    | nil => rfl
    | cons d rest => exact absurd (by simpa [Memory.get] using (h d.1).symm) (un d (by simp))
  | cons c rest ih =>
    cases n with
    | nil => exact absurd (by simpa [Memory.get] using h c.1) (um c (by simp))
    | cons d rest' =>
      rw [List.pairwise_cons] at sm sn
      have hcd : c.1 = d.1 := by
        rcases Nat.lt_trichotomy c.1 d.1 with hlt | heq | hlt
        · refine absurd ?_ (um c (by simp))
          have := h c.1
          rw [Memory.get_of_lt (d :: rest') c.1 (fun e he => ?_)] at this
          · simpa [Memory.get] using this
          · rcases List.mem_cons.1 he with rfl | he
            · exact hlt
            · exact Nat.lt_trans hlt (sn.1 e he)
        · exact heq
        · refine absurd ?_ (un d (by simp))
          have := h d.1
          rw [Memory.get_of_lt (c :: rest) d.1 (fun e he => ?_)] at this
          · simpa [Memory.get] using this.symm
          · rcases List.mem_cons.1 he with rfl | he
            · exact hlt
            · exact Nat.lt_trans hlt (sm.1 e he)
      have hu : c.2 = d.2 := by simpa [Memory.get, hcd] using h c.1
      have hr : rest = rest' := by
        refine ih rest' (fun a => ?_) sm.2 (fun e he => um e (by simp [he])) sn.2 (fun e he => un e (by simp [he]))
        by_cases ha : c.1 = a
        · rw [Memory.get_of_lt rest a (fun e he => ha ▸ sm.1 e he),
            Memory.get_of_lt rest' a (fun e he => (hcd ▸ ha) ▸ sn.1 e he)]
        · simpa [Memory.get, ha, hcd ▸ ha] using h a
      rw [hr, Prod.ext hcd hu]

/-! ### Construction -/

theorem initialMemory_get_ram (p : Config.Init) (k : Fin Config.ramSize) : (initialMemory p).get (0x200 + k.val) = p.ram k := by
  have hk : k.val < 3232 := k.isLt
  unfold initialMemory
  rw [Memory.get_setMany, dif_neg (by simp only [Config.fbBase]; omega), Memory.get_setMany,
    dif_pos (by simp only [Config.ramBase, List.length_ofFn, Config.ramSize]; omega)]
  simp only [List.getElem_ofFn, Config.ramBase, Nat.add_sub_cancel_left]

theorem initialMemory_get_fb (p : Config.Init) (k : Fin Config.fbSize) : (initialMemory p).get (0xF00 + k.val) = p.fb k := by
  have hk : k.val < 256 := k.isLt
  unfold initialMemory
  rw [Memory.get_setMany, dif_pos (by simp only [Config.fbBase, List.length_ofFn, Config.fbSize]; omega)]
  simp only [List.getElem_ofFn, Config.fbBase, Nat.add_sub_cancel_left]

theorem initialMemory_wf (p : Config.Init) : (initialMemory p).wf = true := by
  unfold initialMemory
  exact Memory.wf_setMany _ _ _ (Memory.wf_setMany _ _ _ rfl)

theorem initialMemory_inStorage (p : Config.Init) : (initialMemory p).inStorage = true := by
  unfold initialMemory
  refine Memory.inStorage_setMany _ _ _ (fun k hk => ?_) (Memory.inStorage_setMany _ _ _ (fun k hk => ?_) rfl)
  · simp only [List.length_ofFn, Config.fbSize] at hk
    simp only [stored, Config.fbBase, Config.memSize, Config.ramBase, Config.ramEnd]
    simp; omega
  · simp only [List.length_ofFn, Config.ramSize] at hk
    simp only [stored, Config.fbBase, Config.memSize, Config.ramBase, Config.ramEnd]
    simp; omega

/-- With every open parameter zero, construction lists nothing. -/
theorem initialMemory_zero : initialMemory Config.Init.zero = [] := by
  refine Memory.eq_of_get_eq _ _ (initialMemory_wf _) rfl fun a => ?_
  unfold initialMemory
  rw [Memory.get_setMany, Memory.get_setMany]
  split
  · rw [List.getElem_ofFn]; rfl
  · split
    · rw [List.getElem_ofFn]; rfl
    · rfl

end Sys2Proof.Machine
end

