-- ==== Sys2Proof/Laws/State.lean ====
section
/-! SUPPORT. The projections of every field update (each true by rfl), of the register updates, and what
they say of registers and keys. With these no proof unfolds a record update. -/

namespace Sys2Proof.Machine

/-! ### `withV` -/

@[simp] theorem State.withV_v (s : State) (z : Vector Byte 16) : (s.withV z).v = z := rfl
@[simp] theorem State.withV_i (s : State) (z : Vector Byte 16) : (s.withV z).i = s.i := rfl
@[simp] theorem State.withV_pc (s : State) (z : Vector Byte 16) : (s.withV z).pc = s.pc := rfl
@[simp] theorem State.withV_stack (s : State) (z : Vector Byte 16) : (s.withV z).stack = s.stack := rfl
@[simp] theorem State.withV_dt (s : State) (z : Vector Byte 16) : (s.withV z).dt = s.dt := rfl
@[simp] theorem State.withV_st (s : State) (z : Vector Byte 16) : (s.withV z).st = s.st := rfl
@[simp] theorem State.withV_mem (s : State) (z : Vector Byte 16) : (s.withV z).mem = s.mem := rfl
@[simp] theorem State.withV_dirty (s : State) (z : Vector Byte 16) : (s.withV z).dirty = s.dirty := rfl
@[simp] theorem State.withV_pressed (s : State) (z : Vector Byte 16) : (s.withV z).pressed = s.pressed := rfl
@[simp] theorem State.withV_latch (s : State) (z : Vector Byte 16) : (s.withV z).latch = s.latch := rfl
@[simp] theorem State.withV_status (s : State) (z : Vector Byte 16) : (s.withV z).status = s.status := rfl
@[simp] theorem State.withV_draws (s : State) (z : Vector Byte 16) : (s.withV z).draws = s.draws := rfl
@[simp] theorem State.withV_isPressed (s : State) (z : Vector Byte 16) (k : KeyId) : (s.withV z).isPressed k = s.isPressed k := rfl

/-! ### `withI` -/

@[simp] theorem State.withI_v (s : State) (z : Word) : (s.withI z).v = s.v := rfl
@[simp] theorem State.withI_i (s : State) (z : Word) : (s.withI z).i = z := rfl
@[simp] theorem State.withI_pc (s : State) (z : Word) : (s.withI z).pc = s.pc := rfl
@[simp] theorem State.withI_stack (s : State) (z : Word) : (s.withI z).stack = s.stack := rfl
@[simp] theorem State.withI_dt (s : State) (z : Word) : (s.withI z).dt = s.dt := rfl
@[simp] theorem State.withI_st (s : State) (z : Word) : (s.withI z).st = s.st := rfl
@[simp] theorem State.withI_mem (s : State) (z : Word) : (s.withI z).mem = s.mem := rfl
@[simp] theorem State.withI_dirty (s : State) (z : Word) : (s.withI z).dirty = s.dirty := rfl
@[simp] theorem State.withI_pressed (s : State) (z : Word) : (s.withI z).pressed = s.pressed := rfl
@[simp] theorem State.withI_latch (s : State) (z : Word) : (s.withI z).latch = s.latch := rfl
@[simp] theorem State.withI_status (s : State) (z : Word) : (s.withI z).status = s.status := rfl
@[simp] theorem State.withI_draws (s : State) (z : Word) : (s.withI z).draws = s.draws := rfl
@[simp] theorem State.withI_reg (s : State) (z : Word) (r : RegId) : (s.withI z).reg r = s.reg r := rfl
@[simp] theorem State.withI_isPressed (s : State) (z : Word) (k : KeyId) : (s.withI z).isPressed k = s.isPressed k := rfl

/-! ### `withPc` -/

@[simp] theorem State.withPc_v (s : State) (z : Word) : (s.withPc z).v = s.v := rfl
@[simp] theorem State.withPc_i (s : State) (z : Word) : (s.withPc z).i = s.i := rfl
@[simp] theorem State.withPc_pc (s : State) (z : Word) : (s.withPc z).pc = z := rfl
@[simp] theorem State.withPc_stack (s : State) (z : Word) : (s.withPc z).stack = s.stack := rfl
@[simp] theorem State.withPc_dt (s : State) (z : Word) : (s.withPc z).dt = s.dt := rfl
@[simp] theorem State.withPc_st (s : State) (z : Word) : (s.withPc z).st = s.st := rfl
@[simp] theorem State.withPc_mem (s : State) (z : Word) : (s.withPc z).mem = s.mem := rfl
@[simp] theorem State.withPc_dirty (s : State) (z : Word) : (s.withPc z).dirty = s.dirty := rfl
@[simp] theorem State.withPc_pressed (s : State) (z : Word) : (s.withPc z).pressed = s.pressed := rfl
@[simp] theorem State.withPc_latch (s : State) (z : Word) : (s.withPc z).latch = s.latch := rfl
@[simp] theorem State.withPc_status (s : State) (z : Word) : (s.withPc z).status = s.status := rfl
@[simp] theorem State.withPc_draws (s : State) (z : Word) : (s.withPc z).draws = s.draws := rfl
@[simp] theorem State.withPc_reg (s : State) (z : Word) (r : RegId) : (s.withPc z).reg r = s.reg r := rfl
@[simp] theorem State.withPc_isPressed (s : State) (z : Word) (k : KeyId) : (s.withPc z).isPressed k = s.isPressed k := rfl

/-! ### `withStack` -/

@[simp] theorem State.withStack_v (s : State) (z : List Word) : (s.withStack z).v = s.v := rfl
@[simp] theorem State.withStack_i (s : State) (z : List Word) : (s.withStack z).i = s.i := rfl
@[simp] theorem State.withStack_pc (s : State) (z : List Word) : (s.withStack z).pc = s.pc := rfl
@[simp] theorem State.withStack_stack (s : State) (z : List Word) : (s.withStack z).stack = z := rfl
@[simp] theorem State.withStack_dt (s : State) (z : List Word) : (s.withStack z).dt = s.dt := rfl
@[simp] theorem State.withStack_st (s : State) (z : List Word) : (s.withStack z).st = s.st := rfl
@[simp] theorem State.withStack_mem (s : State) (z : List Word) : (s.withStack z).mem = s.mem := rfl
@[simp] theorem State.withStack_dirty (s : State) (z : List Word) : (s.withStack z).dirty = s.dirty := rfl
@[simp] theorem State.withStack_pressed (s : State) (z : List Word) : (s.withStack z).pressed = s.pressed := rfl
@[simp] theorem State.withStack_latch (s : State) (z : List Word) : (s.withStack z).latch = s.latch := rfl
@[simp] theorem State.withStack_status (s : State) (z : List Word) : (s.withStack z).status = s.status := rfl
@[simp] theorem State.withStack_draws (s : State) (z : List Word) : (s.withStack z).draws = s.draws := rfl
@[simp] theorem State.withStack_reg (s : State) (z : List Word) (r : RegId) : (s.withStack z).reg r = s.reg r := rfl
@[simp] theorem State.withStack_isPressed (s : State) (z : List Word) (k : KeyId) : (s.withStack z).isPressed k = s.isPressed k := rfl

/-! ### `withDt` -/

@[simp] theorem State.withDt_v (s : State) (z : Byte) : (s.withDt z).v = s.v := rfl
@[simp] theorem State.withDt_i (s : State) (z : Byte) : (s.withDt z).i = s.i := rfl
@[simp] theorem State.withDt_pc (s : State) (z : Byte) : (s.withDt z).pc = s.pc := rfl
@[simp] theorem State.withDt_stack (s : State) (z : Byte) : (s.withDt z).stack = s.stack := rfl
@[simp] theorem State.withDt_dt (s : State) (z : Byte) : (s.withDt z).dt = z := rfl
@[simp] theorem State.withDt_st (s : State) (z : Byte) : (s.withDt z).st = s.st := rfl
@[simp] theorem State.withDt_mem (s : State) (z : Byte) : (s.withDt z).mem = s.mem := rfl
@[simp] theorem State.withDt_dirty (s : State) (z : Byte) : (s.withDt z).dirty = s.dirty := rfl
@[simp] theorem State.withDt_pressed (s : State) (z : Byte) : (s.withDt z).pressed = s.pressed := rfl
@[simp] theorem State.withDt_latch (s : State) (z : Byte) : (s.withDt z).latch = s.latch := rfl
@[simp] theorem State.withDt_status (s : State) (z : Byte) : (s.withDt z).status = s.status := rfl
@[simp] theorem State.withDt_draws (s : State) (z : Byte) : (s.withDt z).draws = s.draws := rfl
@[simp] theorem State.withDt_reg (s : State) (z : Byte) (r : RegId) : (s.withDt z).reg r = s.reg r := rfl
@[simp] theorem State.withDt_isPressed (s : State) (z : Byte) (k : KeyId) : (s.withDt z).isPressed k = s.isPressed k := rfl

/-! ### `withSt` -/

@[simp] theorem State.withSt_v (s : State) (z : Byte) : (s.withSt z).v = s.v := rfl
@[simp] theorem State.withSt_i (s : State) (z : Byte) : (s.withSt z).i = s.i := rfl
@[simp] theorem State.withSt_pc (s : State) (z : Byte) : (s.withSt z).pc = s.pc := rfl
@[simp] theorem State.withSt_stack (s : State) (z : Byte) : (s.withSt z).stack = s.stack := rfl
@[simp] theorem State.withSt_dt (s : State) (z : Byte) : (s.withSt z).dt = s.dt := rfl
@[simp] theorem State.withSt_st (s : State) (z : Byte) : (s.withSt z).st = z := rfl
@[simp] theorem State.withSt_mem (s : State) (z : Byte) : (s.withSt z).mem = s.mem := rfl
@[simp] theorem State.withSt_dirty (s : State) (z : Byte) : (s.withSt z).dirty = s.dirty := rfl
@[simp] theorem State.withSt_pressed (s : State) (z : Byte) : (s.withSt z).pressed = s.pressed := rfl
@[simp] theorem State.withSt_latch (s : State) (z : Byte) : (s.withSt z).latch = s.latch := rfl
@[simp] theorem State.withSt_status (s : State) (z : Byte) : (s.withSt z).status = s.status := rfl
@[simp] theorem State.withSt_draws (s : State) (z : Byte) : (s.withSt z).draws = s.draws := rfl
@[simp] theorem State.withSt_reg (s : State) (z : Byte) (r : RegId) : (s.withSt z).reg r = s.reg r := rfl
@[simp] theorem State.withSt_isPressed (s : State) (z : Byte) (k : KeyId) : (s.withSt z).isPressed k = s.isPressed k := rfl

/-! ### `withMem` -/

@[simp] theorem State.withMem_v (s : State) (z : Memory) : (s.withMem z).v = s.v := rfl
@[simp] theorem State.withMem_i (s : State) (z : Memory) : (s.withMem z).i = s.i := rfl
@[simp] theorem State.withMem_pc (s : State) (z : Memory) : (s.withMem z).pc = s.pc := rfl
@[simp] theorem State.withMem_stack (s : State) (z : Memory) : (s.withMem z).stack = s.stack := rfl
@[simp] theorem State.withMem_dt (s : State) (z : Memory) : (s.withMem z).dt = s.dt := rfl
@[simp] theorem State.withMem_st (s : State) (z : Memory) : (s.withMem z).st = s.st := rfl
@[simp] theorem State.withMem_mem (s : State) (z : Memory) : (s.withMem z).mem = z := rfl
@[simp] theorem State.withMem_dirty (s : State) (z : Memory) : (s.withMem z).dirty = s.dirty := rfl
@[simp] theorem State.withMem_pressed (s : State) (z : Memory) : (s.withMem z).pressed = s.pressed := rfl
@[simp] theorem State.withMem_latch (s : State) (z : Memory) : (s.withMem z).latch = s.latch := rfl
@[simp] theorem State.withMem_status (s : State) (z : Memory) : (s.withMem z).status = s.status := rfl
@[simp] theorem State.withMem_draws (s : State) (z : Memory) : (s.withMem z).draws = s.draws := rfl
@[simp] theorem State.withMem_reg (s : State) (z : Memory) (r : RegId) : (s.withMem z).reg r = s.reg r := rfl
@[simp] theorem State.withMem_isPressed (s : State) (z : Memory) (k : KeyId) : (s.withMem z).isPressed k = s.isPressed k := rfl

/-! ### `withDirty` -/

@[simp] theorem State.withDirty_v (s : State) (z : Bool) : (s.withDirty z).v = s.v := rfl
@[simp] theorem State.withDirty_i (s : State) (z : Bool) : (s.withDirty z).i = s.i := rfl
@[simp] theorem State.withDirty_pc (s : State) (z : Bool) : (s.withDirty z).pc = s.pc := rfl
@[simp] theorem State.withDirty_stack (s : State) (z : Bool) : (s.withDirty z).stack = s.stack := rfl
@[simp] theorem State.withDirty_dt (s : State) (z : Bool) : (s.withDirty z).dt = s.dt := rfl
@[simp] theorem State.withDirty_st (s : State) (z : Bool) : (s.withDirty z).st = s.st := rfl
@[simp] theorem State.withDirty_mem (s : State) (z : Bool) : (s.withDirty z).mem = s.mem := rfl
@[simp] theorem State.withDirty_dirty (s : State) (z : Bool) : (s.withDirty z).dirty = z := rfl
@[simp] theorem State.withDirty_pressed (s : State) (z : Bool) : (s.withDirty z).pressed = s.pressed := rfl
@[simp] theorem State.withDirty_latch (s : State) (z : Bool) : (s.withDirty z).latch = s.latch := rfl
@[simp] theorem State.withDirty_status (s : State) (z : Bool) : (s.withDirty z).status = s.status := rfl
@[simp] theorem State.withDirty_draws (s : State) (z : Bool) : (s.withDirty z).draws = s.draws := rfl
@[simp] theorem State.withDirty_reg (s : State) (z : Bool) (r : RegId) : (s.withDirty z).reg r = s.reg r := rfl
@[simp] theorem State.withDirty_isPressed (s : State) (z : Bool) (k : KeyId) : (s.withDirty z).isPressed k = s.isPressed k := rfl

/-! ### `withPressed` -/

@[simp] theorem State.withPressed_v (s : State) (z : Vector Bool 16) : (s.withPressed z).v = s.v := rfl
@[simp] theorem State.withPressed_i (s : State) (z : Vector Bool 16) : (s.withPressed z).i = s.i := rfl
@[simp] theorem State.withPressed_pc (s : State) (z : Vector Bool 16) : (s.withPressed z).pc = s.pc := rfl
@[simp] theorem State.withPressed_stack (s : State) (z : Vector Bool 16) : (s.withPressed z).stack = s.stack := rfl
@[simp] theorem State.withPressed_dt (s : State) (z : Vector Bool 16) : (s.withPressed z).dt = s.dt := rfl
@[simp] theorem State.withPressed_st (s : State) (z : Vector Bool 16) : (s.withPressed z).st = s.st := rfl
@[simp] theorem State.withPressed_mem (s : State) (z : Vector Bool 16) : (s.withPressed z).mem = s.mem := rfl
@[simp] theorem State.withPressed_dirty (s : State) (z : Vector Bool 16) : (s.withPressed z).dirty = s.dirty := rfl
@[simp] theorem State.withPressed_pressed (s : State) (z : Vector Bool 16) : (s.withPressed z).pressed = z := rfl
@[simp] theorem State.withPressed_latch (s : State) (z : Vector Bool 16) : (s.withPressed z).latch = s.latch := rfl
@[simp] theorem State.withPressed_status (s : State) (z : Vector Bool 16) : (s.withPressed z).status = s.status := rfl
@[simp] theorem State.withPressed_draws (s : State) (z : Vector Bool 16) : (s.withPressed z).draws = s.draws := rfl
@[simp] theorem State.withPressed_reg (s : State) (z : Vector Bool 16) (r : RegId) : (s.withPressed z).reg r = s.reg r := rfl

/-! ### `withLatch` -/

@[simp] theorem State.withLatch_v (s : State) (z : Option KeyId) : (s.withLatch z).v = s.v := rfl
@[simp] theorem State.withLatch_i (s : State) (z : Option KeyId) : (s.withLatch z).i = s.i := rfl
@[simp] theorem State.withLatch_pc (s : State) (z : Option KeyId) : (s.withLatch z).pc = s.pc := rfl
@[simp] theorem State.withLatch_stack (s : State) (z : Option KeyId) : (s.withLatch z).stack = s.stack := rfl
@[simp] theorem State.withLatch_dt (s : State) (z : Option KeyId) : (s.withLatch z).dt = s.dt := rfl
@[simp] theorem State.withLatch_st (s : State) (z : Option KeyId) : (s.withLatch z).st = s.st := rfl
@[simp] theorem State.withLatch_mem (s : State) (z : Option KeyId) : (s.withLatch z).mem = s.mem := rfl
@[simp] theorem State.withLatch_dirty (s : State) (z : Option KeyId) : (s.withLatch z).dirty = s.dirty := rfl
@[simp] theorem State.withLatch_pressed (s : State) (z : Option KeyId) : (s.withLatch z).pressed = s.pressed := rfl
@[simp] theorem State.withLatch_latch (s : State) (z : Option KeyId) : (s.withLatch z).latch = z := rfl
@[simp] theorem State.withLatch_status (s : State) (z : Option KeyId) : (s.withLatch z).status = s.status := rfl
@[simp] theorem State.withLatch_draws (s : State) (z : Option KeyId) : (s.withLatch z).draws = s.draws := rfl
@[simp] theorem State.withLatch_reg (s : State) (z : Option KeyId) (r : RegId) : (s.withLatch z).reg r = s.reg r := rfl
@[simp] theorem State.withLatch_isPressed (s : State) (z : Option KeyId) (k : KeyId) : (s.withLatch z).isPressed k = s.isPressed k := rfl

/-! ### `withStatus` -/

@[simp] theorem State.withStatus_v (s : State) (z : Status) : (s.withStatus z).v = s.v := rfl
@[simp] theorem State.withStatus_i (s : State) (z : Status) : (s.withStatus z).i = s.i := rfl
@[simp] theorem State.withStatus_pc (s : State) (z : Status) : (s.withStatus z).pc = s.pc := rfl
@[simp] theorem State.withStatus_stack (s : State) (z : Status) : (s.withStatus z).stack = s.stack := rfl
@[simp] theorem State.withStatus_dt (s : State) (z : Status) : (s.withStatus z).dt = s.dt := rfl
@[simp] theorem State.withStatus_st (s : State) (z : Status) : (s.withStatus z).st = s.st := rfl
@[simp] theorem State.withStatus_mem (s : State) (z : Status) : (s.withStatus z).mem = s.mem := rfl
@[simp] theorem State.withStatus_dirty (s : State) (z : Status) : (s.withStatus z).dirty = s.dirty := rfl
@[simp] theorem State.withStatus_pressed (s : State) (z : Status) : (s.withStatus z).pressed = s.pressed := rfl
@[simp] theorem State.withStatus_latch (s : State) (z : Status) : (s.withStatus z).latch = s.latch := rfl
@[simp] theorem State.withStatus_status (s : State) (z : Status) : (s.withStatus z).status = z := rfl
@[simp] theorem State.withStatus_draws (s : State) (z : Status) : (s.withStatus z).draws = s.draws := rfl
@[simp] theorem State.withStatus_reg (s : State) (z : Status) (r : RegId) : (s.withStatus z).reg r = s.reg r := rfl
@[simp] theorem State.withStatus_isPressed (s : State) (z : Status) (k : KeyId) : (s.withStatus z).isPressed k = s.isPressed k := rfl

/-! ### `withDraws` -/

@[simp] theorem State.withDraws_v (s : State) (z : Nat) : (s.withDraws z).v = s.v := rfl
@[simp] theorem State.withDraws_i (s : State) (z : Nat) : (s.withDraws z).i = s.i := rfl
@[simp] theorem State.withDraws_pc (s : State) (z : Nat) : (s.withDraws z).pc = s.pc := rfl
@[simp] theorem State.withDraws_stack (s : State) (z : Nat) : (s.withDraws z).stack = s.stack := rfl
@[simp] theorem State.withDraws_dt (s : State) (z : Nat) : (s.withDraws z).dt = s.dt := rfl
@[simp] theorem State.withDraws_st (s : State) (z : Nat) : (s.withDraws z).st = s.st := rfl
@[simp] theorem State.withDraws_mem (s : State) (z : Nat) : (s.withDraws z).mem = s.mem := rfl
@[simp] theorem State.withDraws_dirty (s : State) (z : Nat) : (s.withDraws z).dirty = s.dirty := rfl
@[simp] theorem State.withDraws_pressed (s : State) (z : Nat) : (s.withDraws z).pressed = s.pressed := rfl
@[simp] theorem State.withDraws_latch (s : State) (z : Nat) : (s.withDraws z).latch = s.latch := rfl
@[simp] theorem State.withDraws_status (s : State) (z : Nat) : (s.withDraws z).status = s.status := rfl
@[simp] theorem State.withDraws_draws (s : State) (z : Nat) : (s.withDraws z).draws = z := rfl
@[simp] theorem State.withDraws_reg (s : State) (z : Nat) (r : RegId) : (s.withDraws z).reg r = s.reg r := rfl
@[simp] theorem State.withDraws_isPressed (s : State) (z : Nat) (k : KeyId) : (s.withDraws z).isPressed k = s.isPressed k := rfl

/-! ### The updates made of them -/

@[simp] theorem State.setPressed_v (s : State) (k : KeyId) (b : Bool) : (s.setPressed k b).v = s.v := rfl
@[simp] theorem State.advance_v (s : State) : s.advance.v = s.v := rfl
@[simp] theorem State.rewind_v (s : State) : s.rewind.v = s.v := rfl
@[simp] theorem State.push_v (s : State) (w : Word) : (s.push w).v = s.v := rfl
@[simp] theorem State.skipIf_v (s : State) (c : Bool) : (s.skipIf c).v = s.v := by cases c <;> rfl
@[simp] theorem State.setReg_i (s : State) (x : RegId) (b : Byte) : (s.setReg x b).i = s.i := rfl
@[simp] theorem State.setFlagged_i (s : State) (x : RegId) (c b : Byte) : (s.setFlagged x c b).i = s.i := rfl
@[simp] theorem State.setPressed_i (s : State) (k : KeyId) (b : Bool) : (s.setPressed k b).i = s.i := rfl
@[simp] theorem State.advance_i (s : State) : s.advance.i = s.i := rfl
@[simp] theorem State.rewind_i (s : State) : s.rewind.i = s.i := rfl
@[simp] theorem State.push_i (s : State) (w : Word) : (s.push w).i = s.i := rfl
@[simp] theorem State.skipIf_i (s : State) (c : Bool) : (s.skipIf c).i = s.i := by cases c <;> rfl
@[simp] theorem State.setReg_pc (s : State) (x : RegId) (b : Byte) : (s.setReg x b).pc = s.pc := rfl
@[simp] theorem State.setFlagged_pc (s : State) (x : RegId) (c b : Byte) : (s.setFlagged x c b).pc = s.pc := rfl
@[simp] theorem State.setPressed_pc (s : State) (k : KeyId) (b : Bool) : (s.setPressed k b).pc = s.pc := rfl
@[simp] theorem State.advance_pc (s : State) : s.advance.pc = s.pc + 2 := rfl
@[simp] theorem State.rewind_pc (s : State) : s.rewind.pc = s.pc - 2 := rfl
@[simp] theorem State.push_pc (s : State) (w : Word) : (s.push w).pc = s.pc := rfl
@[simp] theorem State.setReg_stack (s : State) (x : RegId) (b : Byte) : (s.setReg x b).stack = s.stack := rfl
@[simp] theorem State.setFlagged_stack (s : State) (x : RegId) (c b : Byte) : (s.setFlagged x c b).stack = s.stack := rfl
@[simp] theorem State.setPressed_stack (s : State) (k : KeyId) (b : Bool) : (s.setPressed k b).stack = s.stack := rfl
@[simp] theorem State.advance_stack (s : State) : s.advance.stack = s.stack := rfl
@[simp] theorem State.rewind_stack (s : State) : s.rewind.stack = s.stack := rfl
@[simp] theorem State.push_stack (s : State) (w : Word) : (s.push w).stack = w :: s.stack := rfl
@[simp] theorem State.skipIf_stack (s : State) (c : Bool) : (s.skipIf c).stack = s.stack := by cases c <;> rfl
@[simp] theorem State.setReg_dt (s : State) (x : RegId) (b : Byte) : (s.setReg x b).dt = s.dt := rfl
@[simp] theorem State.setFlagged_dt (s : State) (x : RegId) (c b : Byte) : (s.setFlagged x c b).dt = s.dt := rfl
@[simp] theorem State.setPressed_dt (s : State) (k : KeyId) (b : Bool) : (s.setPressed k b).dt = s.dt := rfl
@[simp] theorem State.advance_dt (s : State) : s.advance.dt = s.dt := rfl
@[simp] theorem State.rewind_dt (s : State) : s.rewind.dt = s.dt := rfl
@[simp] theorem State.push_dt (s : State) (w : Word) : (s.push w).dt = s.dt := rfl
@[simp] theorem State.skipIf_dt (s : State) (c : Bool) : (s.skipIf c).dt = s.dt := by cases c <;> rfl
@[simp] theorem State.setReg_st (s : State) (x : RegId) (b : Byte) : (s.setReg x b).st = s.st := rfl
@[simp] theorem State.setFlagged_st (s : State) (x : RegId) (c b : Byte) : (s.setFlagged x c b).st = s.st := rfl
@[simp] theorem State.setPressed_st (s : State) (k : KeyId) (b : Bool) : (s.setPressed k b).st = s.st := rfl
@[simp] theorem State.advance_st (s : State) : s.advance.st = s.st := rfl
@[simp] theorem State.rewind_st (s : State) : s.rewind.st = s.st := rfl
@[simp] theorem State.push_st (s : State) (w : Word) : (s.push w).st = s.st := rfl
@[simp] theorem State.skipIf_st (s : State) (c : Bool) : (s.skipIf c).st = s.st := by cases c <;> rfl
@[simp] theorem State.setReg_mem (s : State) (x : RegId) (b : Byte) : (s.setReg x b).mem = s.mem := rfl
@[simp] theorem State.setFlagged_mem (s : State) (x : RegId) (c b : Byte) : (s.setFlagged x c b).mem = s.mem := rfl
@[simp] theorem State.setPressed_mem (s : State) (k : KeyId) (b : Bool) : (s.setPressed k b).mem = s.mem := rfl
@[simp] theorem State.advance_mem (s : State) : s.advance.mem = s.mem := rfl
@[simp] theorem State.rewind_mem (s : State) : s.rewind.mem = s.mem := rfl
@[simp] theorem State.push_mem (s : State) (w : Word) : (s.push w).mem = s.mem := rfl
@[simp] theorem State.skipIf_mem (s : State) (c : Bool) : (s.skipIf c).mem = s.mem := by cases c <;> rfl
@[simp] theorem State.setReg_dirty (s : State) (x : RegId) (b : Byte) : (s.setReg x b).dirty = s.dirty := rfl
@[simp] theorem State.setFlagged_dirty (s : State) (x : RegId) (c b : Byte) : (s.setFlagged x c b).dirty = s.dirty := rfl
@[simp] theorem State.setPressed_dirty (s : State) (k : KeyId) (b : Bool) : (s.setPressed k b).dirty = s.dirty := rfl
@[simp] theorem State.advance_dirty (s : State) : s.advance.dirty = s.dirty := rfl
@[simp] theorem State.rewind_dirty (s : State) : s.rewind.dirty = s.dirty := rfl
@[simp] theorem State.push_dirty (s : State) (w : Word) : (s.push w).dirty = s.dirty := rfl
@[simp] theorem State.skipIf_dirty (s : State) (c : Bool) : (s.skipIf c).dirty = s.dirty := by cases c <;> rfl
@[simp] theorem State.setReg_pressed (s : State) (x : RegId) (b : Byte) : (s.setReg x b).pressed = s.pressed := rfl
@[simp] theorem State.setFlagged_pressed (s : State) (x : RegId) (c b : Byte) : (s.setFlagged x c b).pressed = s.pressed := rfl
@[simp] theorem State.advance_pressed (s : State) : s.advance.pressed = s.pressed := rfl
@[simp] theorem State.rewind_pressed (s : State) : s.rewind.pressed = s.pressed := rfl
@[simp] theorem State.push_pressed (s : State) (w : Word) : (s.push w).pressed = s.pressed := rfl
@[simp] theorem State.skipIf_pressed (s : State) (c : Bool) : (s.skipIf c).pressed = s.pressed := by cases c <;> rfl
@[simp] theorem State.setReg_latch (s : State) (x : RegId) (b : Byte) : (s.setReg x b).latch = s.latch := rfl
@[simp] theorem State.setFlagged_latch (s : State) (x : RegId) (c b : Byte) : (s.setFlagged x c b).latch = s.latch := rfl
@[simp] theorem State.setPressed_latch (s : State) (k : KeyId) (b : Bool) : (s.setPressed k b).latch = s.latch := rfl
@[simp] theorem State.advance_latch (s : State) : s.advance.latch = s.latch := rfl
@[simp] theorem State.rewind_latch (s : State) : s.rewind.latch = s.latch := rfl
@[simp] theorem State.push_latch (s : State) (w : Word) : (s.push w).latch = s.latch := rfl
@[simp] theorem State.skipIf_latch (s : State) (c : Bool) : (s.skipIf c).latch = s.latch := by cases c <;> rfl
@[simp] theorem State.setReg_status (s : State) (x : RegId) (b : Byte) : (s.setReg x b).status = s.status := rfl
@[simp] theorem State.setFlagged_status (s : State) (x : RegId) (c b : Byte) : (s.setFlagged x c b).status = s.status := rfl
@[simp] theorem State.setPressed_status (s : State) (k : KeyId) (b : Bool) : (s.setPressed k b).status = s.status := rfl
@[simp] theorem State.advance_status (s : State) : s.advance.status = s.status := rfl
@[simp] theorem State.rewind_status (s : State) : s.rewind.status = s.status := rfl
@[simp] theorem State.push_status (s : State) (w : Word) : (s.push w).status = s.status := rfl
@[simp] theorem State.skipIf_status (s : State) (c : Bool) : (s.skipIf c).status = s.status := by cases c <;> rfl
@[simp] theorem State.setReg_draws (s : State) (x : RegId) (b : Byte) : (s.setReg x b).draws = s.draws := rfl
@[simp] theorem State.setFlagged_draws (s : State) (x : RegId) (c b : Byte) : (s.setFlagged x c b).draws = s.draws := rfl
@[simp] theorem State.setPressed_draws (s : State) (k : KeyId) (b : Bool) : (s.setPressed k b).draws = s.draws := rfl
@[simp] theorem State.advance_draws (s : State) : s.advance.draws = s.draws := rfl
@[simp] theorem State.rewind_draws (s : State) : s.rewind.draws = s.draws := rfl
@[simp] theorem State.push_draws (s : State) (w : Word) : (s.push w).draws = s.draws := rfl
@[simp] theorem State.skipIf_draws (s : State) (c : Bool) : (s.skipIf c).draws = s.draws := by cases c <;> rfl

@[simp] theorem State.setPressed_reg (s : State) (k : KeyId) (b : Bool) (r : RegId) : (s.setPressed k b).reg r = s.reg r := rfl
@[simp] theorem State.advance_reg (s : State) (r : RegId) : s.advance.reg r = s.reg r := rfl
@[simp] theorem State.rewind_reg (s : State) (r : RegId) : s.rewind.reg r = s.reg r := rfl
@[simp] theorem State.push_reg (s : State) (w : Word) (r : RegId) : (s.push w).reg r = s.reg r := rfl
@[simp] theorem State.skipIf_reg (s : State) (c : Bool) (r : RegId) : (s.skipIf c).reg r = s.reg r := by cases c <;> rfl
@[simp] theorem State.setReg_isPressed (s : State) (x : RegId) (b : Byte) (k : KeyId) : (s.setReg x b).isPressed k = s.isPressed k := rfl
@[simp] theorem State.advance_isPressed (s : State) (k : KeyId) : s.advance.isPressed k = s.isPressed k := rfl

theorem State.skipIf_pc (s : State) (c : Bool) : (s.skipIf c).pc = if c then s.pc + 2 else s.pc := by
  cases c <;> rfl

/-- A register after a register write (10_state.md R7). -/
theorem State.reg_setReg (s : State) (x r : RegId) (b : Byte) :
    (s.setReg x b).reg r = if r = x then b else s.reg r := by
  have hx := x.isLt
  simp only [State.reg, State.setReg, State.withV_v, Vector.getElem_set, Fin.ext_iff, eq_comm]

@[simp] theorem State.reg_setReg_same (s : State) (x : RegId) (b : Byte) : (s.setReg x b).reg x = b := by
  simp [State.reg_setReg]

theorem State.reg_setReg_of_ne (s : State) {x r : RegId} (b : Byte) (h : r ≠ x) :
    (s.setReg x b).reg r = s.reg r := by
  simp [State.reg_setReg, h]

/-- A register after a flag write and a result write, in that order (41_alu.md R64). -/
theorem State.reg_setFlagged (s : State) (x r : RegId) (c b : Byte) :
    (s.setFlagged x c b).reg r = if r = x then b else if r = vf then c else s.reg r := by
  simp [State.setFlagged, State.reg_setReg]

/-- A key after a key write (60_exceptions.md R109, R110). -/
theorem State.isPressed_setPressed (s : State) (j k : KeyId) (b : Bool) :
    (s.setPressed k b).isPressed j = if j = k then b else s.isPressed j := by
  have hk := k.isLt
  simp only [State.isPressed, State.setPressed, State.withPressed_pressed, Vector.getElem_set, Fin.ext_iff,
    eq_comm]

/-- Two states that agree on every register and every other field are equal. -/
theorem State.ext_reg {s t : State} (hv : ∀ r, t.reg r = s.reg r) (hi : t.i = s.i) (hpc : t.pc = s.pc)
    (hstack : t.stack = s.stack) (hdt : t.dt = s.dt) (hst : t.st = s.st) (hmem : t.mem = s.mem)
    (hdirty : t.dirty = s.dirty) (hpressed : t.pressed = s.pressed) (hlatch : t.latch = s.latch)
    (hstatus : t.status = s.status) (hdraws : t.draws = s.draws) : t = s := by
  have hv' : t.v = s.v := Vector.ext fun k hk => hv ⟨k, hk⟩
  cases s; cases t; simp_all

@[simp] theorem State.construct_v (p : Config.Init) : (State.construct p).v = Vector.ofFn p.v := rfl
@[simp] theorem State.construct_i (p : Config.Init) : (State.construct p).i = p.i.setWidth 16 := rfl
@[simp] theorem State.construct_pc (p : Config.Init) : (State.construct p).pc = 0x200 := rfl
@[simp] theorem State.construct_stack (p : Config.Init) : (State.construct p).stack = [] := rfl
@[simp] theorem State.construct_dt (p : Config.Init) : (State.construct p).dt = p.dt := rfl
@[simp] theorem State.construct_st (p : Config.Init) : (State.construct p).st = p.st := rfl
@[simp] theorem State.construct_mem (p : Config.Init) : (State.construct p).mem = initialMemory p := rfl
@[simp] theorem State.construct_dirty (p : Config.Init) : (State.construct p).dirty = p.dirty := rfl
@[simp] theorem State.construct_pressed (p : Config.Init) : (State.construct p).pressed = Vector.replicate 16 false := rfl
@[simp] theorem State.construct_latch (p : Config.Init) : (State.construct p).latch = none := rfl
@[simp] theorem State.construct_status (p : Config.Init) : (State.construct p).status = .running := rfl
@[simp] theorem State.construct_draws (p : Config.Init) : (State.construct p).draws = 0 := rfl
@[simp] theorem State.construct_reg (p : Config.Init) (r : RegId) : (State.construct p).reg r = p.v r := by
  simp [State.reg]
@[simp] theorem State.construct_isPressed (p : Config.Init) (k : KeyId) : (State.construct p).isPressed k = false := by
  simp [State.isPressed]

/-- Reset is construction with every open parameter zero (log 1, log 2). -/
theorem reset_eq_construct : State.reset = State.construct Config.Init.zero := by
  have hv : Vector.replicate 16 (0 : Byte) = Vector.ofFn Config.Init.zero.v := by decide
  unfold State.reset State.construct
  rw [initialMemory_zero, ← hv]
  rfl

end Sys2Proof.Machine
end

