-- ==== Sys2Proof/Laws/Ops.lean ====
section
/-! SUPPORT. One spec lemma for each shared operation: everything it can answer, so that callers never
unfold it. -/

namespace Sys2Proof.Machine

/-! ### Reads -/

theorem stored_iff (a : Nat) :
    stored a = true ↔ (0x200 ≤ a ∧ a < 0xEA0) ∨ (0xF00 ≤ a ∧ a < 0x1000) := by
  simp [stored]

/-- Where there is storage, a read gives the stored byte (20_memory.md R26). -/
theorem memRead_of_stored (s : State) (a : Nat) (h : stored a = true) : memRead s a = .ok (s.mem.get a) := by
  rw [stored_iff] at h
  unfold memRead resolve
  rcases h with h | h
  · simp [show ¬ a < 0x1A0 by omega, show ¬ a < 0x200 by omega, h.2]
  · simp [show ¬ a < 0x1A0 by omega, show ¬ a < 0x200 by omega, show ¬ a < 0xEA0 by omega,
      show ¬ a < 0xF00 by omega, h.2, show 0xF00 + (a - 0xF00) = a by omega]

/-- A read depends on nothing but memory, and where there is no storage on nothing at all. -/
theorem memRead_congr {s t : State} {a : Nat} (h : stored a = true → t.mem.get a = s.mem.get a) :
    memRead t a = memRead s a := by
  by_cases hs : stored a = true
  · rw [memRead_of_stored _ _ hs, memRead_of_stored _ _ hs, h hs]
  · rw [stored_iff] at hs
    unfold memRead resolve
    by_cases h1 : a < 0x1A0
    · simp [h1]
    · by_cases h2 : a < 0x200
      · simp [h1, h2]
      · by_cases h3 : a < 0xF00
        · simp [h1, h2, h3, show ¬ a < 0xEA0 by omega]
        · simp [h1, h2, h3, show ¬ a < 0xEA0 by omega, show ¬ a < 0x1000 by omega]

theorem memRead_of_mem_eq {s t : State} (h : t.mem = s.mem) (a : Nat) : memRead t a = memRead s a :=
  memRead_congr fun _ => by rw [h]

/-- A word read is two byte reads, the one at `a` first (20_memory.md R30). -/
theorem memReadWord_ok_iff (s : State) (a : Nat) (w : Word) :
    memReadWord s a = .ok w ↔ ∃ hi lo, memRead s a = .ok hi ∧ memRead s (a + 1) = .ok lo ∧ w = wordOfBytes hi lo := by
  unfold memReadWord
  cases memRead s a with
  | error e => simp
  | ok hi =>
    cases memRead s (a + 1) with
    | error e => simp
    | ok lo => simp [eq_comm]

/-- A run of reads succeeds with the bytes read, or fails at the first address that fails. -/
theorem memReadMany_ok_iff (s : State) (n a : Nat) (us : List Byte) :
    memReadMany s a n = .ok us ↔ us.length = n ∧ ∀ k (h : k < us.length), memRead s (a + k) = .ok us[k] := by
  induction n generalizing a us with
  | zero =>
    cases us with
    | nil => simp [memReadMany]
    | cons u us => simp [memReadMany]
  | succ n ih =>
    unfold memReadMany
    cases hr : memRead s a with
    | error e =>
      simp only [reduceCtorEq, false_iff, not_and]
      intro hl h
      have := h 0 (by omega)
      simp [hr] at this
    | ok u =>
      cases hm : memReadMany s (a + 1) n with
      | error e =>
        simp only [reduceCtorEq, false_iff, not_and]
        intro hl h
        cases us with
        | nil => simp at hl
        | cons w us =>
          have := (ih (a + 1) us).2 ⟨by simpa using hl, fun k hk => by
            have := h (k + 1) (by simpa using hk)
            simpa [Nat.add_assoc, Nat.add_comm 1 k] using this⟩
          simp [hm] at this
      | ok vs =>
        have hv := (ih (a + 1) vs).1 hm
        simp only [Except.ok.injEq]
        constructor
        · rintro rfl
          refine ⟨by simp [hv.1], fun k hk => ?_⟩
          cases k with
          | zero => simpa using hr
          | succ k =>
            have := hv.2 k (by simpa using hk)
            simpa [Nat.add_assoc, Nat.add_comm 1 k] using this
        · rintro ⟨hl, h⟩
          cases us with
          | nil => simp at hl
          | cons w us =>
            have h0 : u = w := by
              have := h 0 (by simp)
              simpa [hr] using this
            have hs := (ih (a + 1) us).2 ⟨by simpa using hl, fun k hk => by
              have := h (k + 1) (by simpa using hk)
              simpa [Nat.add_assoc, Nat.add_comm 1 k] using this⟩
            rw [hm] at hs
            simp only [Except.ok.injEq] at hs
            rw [h0, hs]

theorem memReadMany_error_of_first (s : State) (n a k : Nat) (e : AccessFault) (hk : k < n)
    (hbefore : ∀ j, j < k → ∃ u, memRead s (a + j) = .ok u) (h : memRead s (a + k) = .error e) :
    memReadMany s a n = .error e := by
  induction n generalizing a k with
  | zero => omega
  | succ n ih =>
    unfold memReadMany
    cases k with
    | zero => simp only [Nat.add_zero] at h; simp [h]
    | succ k =>
      obtain ⟨u, hu⟩ := hbefore 0 (by omega)
      rw [Nat.add_zero] at hu
      have := ih (a + 1) k (by omega)
        (fun j hj => by
          obtain ⟨w, hw⟩ := hbefore (j + 1) (by omega)
          exact ⟨w, by rw [show a + 1 + j = a + (j + 1) by omega]; exact hw⟩)
        (by rw [show a + 1 + k = a + (k + 1) by omega]; exact h)
      simp [hu, this]

/-! ### Writes -/

/-- A write lands exactly where there is storage, and marks the display dirty in the framebuffer
(20_memory.md R28, R29). -/
theorem memWrite_of_stored (s : State) (a : Nat) (u : Byte) (h : stored a = true) :
    memWrite s a u = .ok ((s.withMem (s.mem.set a u)).withDirty (s.dirty || decide (Config.fbBase ≤ a))) := by
  rw [stored_iff] at h
  unfold memWrite resolve
  rcases h with h | h
  · simp [show ¬ a < 0x1A0 by omega, show ¬ a < 0x200 by omega, h.2, show ¬ 0xF00 ≤ a by omega]
    rfl
  · simp [show ¬ a < 0x1A0 by omega, show ¬ a < 0x200 by omega, show ¬ a < 0xEA0 by omega,
      show ¬ a < 0xF00 by omega, h.2, show 0xF00 + (a - 0xF00) = a by omega, h.1]

theorem memWrite_ok_iff (s t : State) (a : Nat) (u : Byte) :
    memWrite s a u = .ok t ↔
      stored a = true ∧ t = (s.withMem (s.mem.set a u)).withDirty (s.dirty || decide (Config.fbBase ≤ a)) := by
  by_cases h : stored a = true
  · rw [memWrite_of_stored s a u h]; simp [h, eq_comm]
  · refine ⟨fun ht => ?_, fun ht => absurd ht.1 h⟩
    have hn := h
    rw [stored_iff] at h
    unfold memWrite resolve at ht
    by_cases h1 : a < 0x1A0
    · simp [h1] at ht
    · by_cases h2 : a < 0x200
      · simp [h1, h2] at ht
      · by_cases h3 : a < 0xF00
        · simp [h1, h2, h3, show ¬ a < 0xEA0 by omega] at ht
        · simp [h1, h2, h3, show ¬ a < 0xEA0 by omega, show ¬ a < 0x1000 by omega] at ht

/-- Two writes, or their failures, depend on the address alone. -/
theorem memWrite_error_iff (s : State) (a : Nat) (u : Byte) (e : AccessFault) :
    memWrite s a u = .error e ↔
      (a < 0x1A0 ∧ e = .readOnlyWrite a) ∨
      (((0x1A0 ≤ a ∧ a < 0x200) ∨ (0xEA0 ≤ a ∧ a < 0xF00)) ∧ e = .reservedRegionAccess a) ∨
      (0x1000 ≤ a ∧ e = .addressOutOfRange a) := by
  have region : (a < 0x1A0 ∧ memWrite s a u = .error (.readOnlyWrite a)) ∨
      (((0x1A0 ≤ a ∧ a < 0x200) ∨ (0xEA0 ≤ a ∧ a < 0xF00)) ∧ memWrite s a u = .error (.reservedRegionAccess a)) ∨
      (0x1000 ≤ a ∧ memWrite s a u = .error (.addressOutOfRange a)) ∨
      (stored a = true ∧ ∃ t, memWrite s a u = .ok t) := by
    by_cases hs : stored a = true
    · exact .inr (.inr (.inr ⟨hs, _, memWrite_of_stored s a u hs⟩))
    · rw [stored_iff] at hs
      unfold memWrite resolve
      by_cases h1 : a < 0x1A0
      · simp [h1]
      · by_cases h2 : a < 0x200
        · right; left; simp [h1, h2]; omega
        · by_cases h3 : a < 0xF00
          · right; left; simp [h1, h2, h3, show ¬ a < 0xEA0 by omega]; omega
          · right; right; left
            simp [h1, h2, h3, show ¬ a < 0xEA0 by omega, show ¬ a < 0x1000 by omega]; omega
  rcases region with ⟨h, hw⟩ | ⟨h, hw⟩ | ⟨h, hw⟩ | ⟨h, t, hw⟩ <;> rw [hw] <;>
    simp only [Except.error.injEq, reduceCtorEq, false_iff, not_or, not_and]
  · exact ⟨fun he => .inl ⟨h, he.symm⟩, by rintro (⟨_, rfl⟩ | ⟨_, rfl⟩ | ⟨_, rfl⟩) <;> first | rfl | omega⟩
  · exact ⟨fun he => .inr (.inl ⟨h, he.symm⟩), by rintro (⟨_, rfl⟩ | ⟨_, rfl⟩ | ⟨_, rfl⟩) <;> first | rfl | omega⟩
  · exact ⟨fun he => .inr (.inr ⟨h, he.symm⟩), by rintro (⟨_, rfl⟩ | ⟨_, rfl⟩ | ⟨_, rfl⟩) <;> first | rfl | omega⟩
  · rw [stored_iff] at h
    exact ⟨fun _ => by omega, fun _ => by omega, fun _ => by omega⟩

/-- A run of writes lands exactly when every address has storage; it marks the display dirty when it is in
the framebuffer. -/
theorem memWriteMany_ok_iff (us : List Byte) (s t : State) (a : Nat) :
    memWriteMany s a us = .ok t ↔
      (∀ k, k < us.length → stored (a + k) = true) ∧
      t = (s.withMem (s.mem.setMany a us)).withDirty (s.dirty || (!us.isEmpty && decide (Config.fbBase ≤ a))) := by
  induction us generalizing s a with
  | nil =>
    simp only [memWriteMany, Memory.setMany, Except.ok.injEq, List.length_nil, Nat.not_lt_zero, false_implies,
      implies_true, true_and, List.isEmpty_nil, Bool.not_true, Bool.false_and, Bool.or_false]
    exact ⟨fun h => h ▸ rfl, fun h => h ▸ rfl⟩
  | cons u us ih =>
    unfold memWriteMany
    by_cases ha : stored a = true
    · rw [memWrite_of_stored s a u ha]
      simp only [ih, List.length_cons]
      constructor
      · rintro ⟨hs, rfl⟩
        refine ⟨fun k hk => ?_, ?_⟩
        · cases k with
          | zero => simpa using ha
          | succ k => have := hs k (by omega); rwa [show a + (k + 1) = a + 1 + k by omega]
        · cases us with
          | nil => simp [Memory.setMany, State.withMem, State.withDirty]
          | cons w ws =>
            have h1 := hs 0 (by simp)
            rw [stored_iff] at ha h1
            have hb : decide (Config.fbBase ≤ a + 1) = decide (Config.fbBase ≤ a) := by
              simp only [decide_eq_decide, Config.fbBase]; omega
            simp [Memory.setMany, State.withMem, State.withDirty, hb]
      · rintro ⟨hs, rfl⟩
        have hs' : ∀ k, k < us.length → stored (a + 1 + k) = true := fun k hk => by
          have := hs (k + 1) (by omega); rwa [show a + 1 + k = a + (k + 1) by omega]
        refine ⟨hs', ?_⟩
        cases us with
        | nil => simp [Memory.setMany, State.withMem, State.withDirty]
        | cons w ws =>
          have h1 := hs' 0 (by simp)
          rw [stored_iff] at ha h1
          have hb : decide (Config.fbBase ≤ a + 1) = decide (Config.fbBase ≤ a) := by
            simp only [decide_eq_decide, Config.fbBase]; omega
          simp [Memory.setMany, State.withMem, State.withDirty, hb]
    · cases hw : memWrite s a u with
      | error e =>
        simp only [reduceCtorEq, false_iff, not_and]
        exact fun hs => absurd (by simpa using hs 0 (by simp)) ha
      | ok t' => exact absurd ((memWrite_ok_iff s t' a u).1 hw).1 ha

theorem memWriteMany_error_of_first (us : List Byte) (s : State) (a k : Nat) (e : AccessFault) (hk : k < us.length)
    (hbefore : ∀ j, j < k → stored (a + j) = true) (h : memWrite s (a + k) 0 = .error e) :
    memWriteMany s a us = .error e := by
  induction us generalizing s a k with
  | nil => simp at hk
  | cons u us ih =>
    unfold memWriteMany
    cases k with
    | zero =>
      have : memWrite s a u = .error e := by
        rw [memWrite_error_iff] at h ⊢; simpa using h
      simp [this]
    | succ k =>
      have ha : stored a = true := by simpa using hbefore 0 (by omega)
      rw [memWrite_of_stored s a u ha]
      refine ih _ (a + 1) k (by simpa using hk) (fun j hj => ?_) ?_
      · have := hbefore (j + 1) (by omega); rwa [show a + 1 + j = a + (j + 1) by omega]
      · rw [memWrite_error_iff] at h ⊢; rwa [show a + 1 + k = a + (k + 1) by omega]

/-- Whether a write fails, and how, does not depend on the state. -/
theorem memWrite_error_congr {s : State} (t : State) {a : Nat} {u : Byte} {e : AccessFault}
    (h : memWrite s a u = .error e) : memWrite t a u = .error e := by
  rw [memWrite_error_iff] at h ⊢; exact h

theorem memWriteMany_error_congr {us : List Byte} {s : State} (t : State) {a : Nat} {e : AccessFault}
    (h : memWriteMany s a us = .error e) : memWriteMany t a us = .error e := by
  induction us generalizing s t a with
  | nil => cases h
  | cons u us ih =>
    unfold memWriteMany at h ⊢
    cases hs : memWrite s a u with
    | error e' =>
      rw [hs] at h; cases h
      rw [memWrite_error_congr t hs]
    | ok s' =>
      rw [hs] at h
      rw [memWrite_of_stored t a u ((memWrite_ok_iff s s' a u).1 hs).1]
      exact ih _ h

/-- A run of writes that goes on keeps the canonical form. -/
theorem memWriteMany_wf {us : List Byte} {s t : State} {a : Nat} (h : memWriteMany s a us = .ok t)
    (hs : s.mem.wf = true) : t.mem.wf = true := by
  obtain ⟨_, rfl⟩ := (memWriteMany_ok_iff us s t a).1 h
  exact Memory.wf_setMany us s.mem a hs

/-- A run of writes that goes on keeps every cell where there is storage. -/
theorem memWriteMany_inStorage {us : List Byte} {s t : State} {a : Nat} (h : memWriteMany s a us = .ok t)
    (hs : s.mem.inStorage = true) : t.mem.inStorage = true := by
  obtain ⟨hst, rfl⟩ := (memWriteMany_ok_iff us s t a).1 h
  exact Memory.inStorage_setMany us s.mem a hst hs

/-! ### Registers in a run -/

theorem State.setRegs_cons (s : State) (i : Nat) (b : Byte) (bs : List Byte) (h : i < 16) :
    s.setRegs i (b :: bs) = (s.setReg ⟨i, h⟩ b).setRegs (i + 1) bs := by
  simp [State.setRegs, h]

/-- A run of register writes: inside the run the written byte, outside it as before. -/
theorem State.reg_setRegs (us : List Byte) (s : State) (i : Nat) (r : RegId) (h : i + us.length ≤ 16) :
    (s.setRegs i us).reg r = if h : i ≤ r.val ∧ r.val < i + us.length then us[r.val - i]'(by omega) else s.reg r := by
  induction us generalizing s i with
  | nil => rw [dif_neg (by simp only [List.length_nil]; omega)]; rfl
  | cons u us ih =>
    simp only [List.length_cons] at h
    rw [State.setRegs_cons s i u us (by omega), ih _ _ (by omega), State.reg_setReg]
    by_cases hr : r.val = i
    · have h1 : ¬ (i + 1 ≤ r.val ∧ r.val < i + 1 + us.length) := by omega
      have h2 : i ≤ r.val ∧ r.val < i + (us.length + 1) := by omega
      rw [dif_neg h1, dif_pos (by simpa using h2)]; simp [hr, Fin.ext_iff]
    · by_cases h1 : i + 1 ≤ r.val ∧ r.val < i + 1 + us.length
      · have h2 : i ≤ r.val ∧ r.val < i + (us.length + 1) := by omega
        have e : r.val - i = (r.val - (i + 1)) + 1 := by omega
        simp only [h1, h2, and_self, dite_true, List.length_cons, e, List.getElem_cons_succ]
      · have h2 : ¬ (i ≤ r.val ∧ r.val < i + (us.length + 1)) := by omega
        have hr' : ¬ r = ⟨i, by omega⟩ := fun e => hr (congrArg Fin.val e)
        rw [dif_neg h1, if_neg hr', dif_neg (by simpa only [List.length_cons] using h2)]

/-- A run of register writes changes nothing but registers. -/
theorem State.setRegs_eq_withV (us : List Byte) (s : State) (i : Nat) : ∃ v, s.setRegs i us = s.withV v := by
  induction us generalizing s i with
  | nil => exact ⟨s.v, rfl⟩
  | cons u us ih =>
    unfold State.setRegs
    split
    · obtain ⟨v, hv⟩ := ih (s.setReg _ u) (i + 1)
      exact ⟨v, by rw [hv]; rfl⟩
    · exact ⟨s.v, rfl⟩

theorem State.length_regsUpTo (s : State) (x : RegId) : (s.regsUpTo x).length = x.val + 1 := by
  have := x.isLt
  rw [State.regsUpTo, List.length_take, Vector.length_toList]
  omega

theorem State.getElem_regsUpTo (s : State) (x : RegId) (k : Nat) (h : k < (s.regsUpTo x).length) :
    (s.regsUpTo x)[k] = s.reg ⟨k, by rw [State.length_regsUpTo] at h; omega⟩ := by
  simp [State.regsUpTo, State.reg]

/-! ### Small values -/

theorem index16_eq_some_iff (b : Byte) (k : Fin 16) : index16 b = some k ↔ k.val = b.toNat := by
  have hk := k.isLt
  unfold index16
  split <;> simp [Fin.ext_iff, eq_comm]
  omega

theorem index16_eq_none_iff (b : Byte) : index16 b = none ↔ 15 < b.toNat := by
  unfold index16
  split <;> simp <;> omega

end Sys2Proof.Machine
end

