-- ==== Sys2Proof/Laws/Display.lean ====
section
/-! SUPPORT. The laws of the framebuffer operations: what one framebuffer byte is after a write, after a clear
and after each part of a draw, and that all of them keep the canonical form and the storage bound. -/

namespace Sys2Proof.Machine

/-! ### One framebuffer byte -/

theorem stored_fb (k : Nat) (h : k < 256) : stored (Config.fbBase + k) = true := by
  rw [stored_iff]; simp only [Config.fbBase]; omega

theorem Memory.fbGet_fbSet (m : Memory) (j k : Nat) (u : Byte) :
    (m.fbSet k u).fbGet j = if j = k then u else m.fbGet j := by
  unfold Memory.fbGet Memory.fbSet
  rw [Memory.get_set]
  simp only [Nat.add_left_cancel_iff]

theorem Memory.get_fbSet_of_lt (m : Memory) (a k : Nat) (u : Byte) (h : a < 0xF00) : (m.fbSet k u).get a = m.get a :=
  Memory.get_set_of_ne _ _ (by simp only [Config.fbBase]; omega)

theorem memRead_fb (s : State) (k : Nat) (h : k < 256) : memRead s (0xF00 + k) = .ok (s.mem.fbGet k) :=
  memRead_of_stored s _ (stored_fb k h)

/-! ### Clearing -/

theorem Memory.get_fbZero (m : Memory) (a : Nat) :
    m.fbZero.get a = if 0xF00 ≤ a ∧ a < 0x1000 then 0 else m.get a := by
  unfold Memory.fbZero
  rw [Memory.get_setMany]
  simp only [List.length_replicate, List.getElem_replicate, dite_eq_ite]
  rfl

theorem Memory.fbGet_fbZero (m : Memory) (k : Nat) (h : k < 256) : m.fbZero.fbGet k = 0 := by
  unfold Memory.fbGet
  rw [Memory.get_fbZero, if_pos (by simp only [Config.fbBase]; omega)]

/-! ### The canonical form and the storage bound -/

theorem Memory.wf_fbSet (m : Memory) (k : Nat) (u : Byte) (h : m.wf = true) : (m.fbSet k u).wf = true :=
  Memory.wf_set _ _ _ h

theorem Memory.inStorage_fbSet (m : Memory) (k : Nat) (u : Byte) (hk : k < 256) (h : m.inStorage = true) :
    (m.fbSet k u).inStorage = true :=
  Memory.inStorage_set _ _ _ (stored_fb k hk) h

theorem Memory.wf_fbZero (m : Memory) (h : m.wf = true) : m.fbZero.wf = true := by
  unfold Memory.fbZero
  exact Memory.wf_setMany _ _ _ h

theorem Memory.inStorage_fbZero (m : Memory) (h : m.inStorage = true) : m.fbZero.inStorage = true := by
  unfold Memory.fbZero
  exact Memory.inStorage_setMany _ _ _ (fun k hk => stored_fb k (by simpa using hk)) h

theorem blitRow_mem_keeps (P : Memory → Prop) (hP : ∀ m k u, k < 256 → P m → P (m.fbSet k u)) (acc : Memory × Bool)
    (col r : Nat) (u : Byte) (hc : col < 64) (hr : r < 32) (h : P acc.1) : P (blitRow acc col r u).1 := by
  unfold blitRow
  simp only
  split
  · exact hP _ _ _ (by omega) h
  · exact hP _ _ _ (by omega) (hP _ _ _ (by omega) h)

/-- What every framebuffer write keeps, a draw keeps. -/
theorem blitRows_mem_keeps (P : Memory → Prop) (hP : ∀ m k u, k < 256 → P m → P (m.fbSet k u)) (cx cy : Nat)
    (us : List Byte) (acc : Memory × Bool) (i : Nat) (h : P acc.1) : P (blitRows cx cy acc i us).1 := by
  induction us generalizing acc i with
  | nil => exact h
  | cons u us ih => exact ih _ _ (blitRow_mem_keeps P hP _ _ _ _ (by omega) (by omega) h)

theorem wf_blitRows (cx cy : Nat) (us : List Byte) (acc : Memory × Bool) (i : Nat) (h : acc.1.wf = true) :
    (blitRows cx cy acc i us).1.wf = true :=
  blitRows_mem_keeps (fun m => m.wf = true) (fun m k u _ => m.wf_fbSet k u) cx cy us acc i h

theorem inStorage_blitRows (cx cy : Nat) (us : List Byte) (acc : Memory × Bool) (i : Nat) (h : acc.1.inStorage = true) :
    (blitRows cx cy acc i us).1.inStorage = true :=
  blitRows_mem_keeps (fun m => m.inStorage = true) (fun m k u => m.inStorage_fbSet k u) cx cy us acc i h

/-- A draw changes no byte below the framebuffer. -/
theorem get_blitRows_of_lt (cx cy : Nat) (us : List Byte) (acc : Memory × Bool) (i a : Nat) (ha : a < 0xF00) :
    (blitRows cx cy acc i us).1.get a = acc.1.get a :=
  blitRows_mem_keeps (fun m => m.get a = acc.1.get a)
    (fun m k u _ h => (m.get_fbSet_of_lt a k u ha).trans h) cx cy us acc i rfl

/-! ### One sprite row -/

/-- What the sprite row `u` at column `col` XORs into byte `b` of its framebuffer row (43_display.md R86). -/
def rowByte (col : Nat) (u : Byte) (b : Nat) : Byte :=
  if b = col / 8 then u >>> (col % 8)
  else if col % 8 ≠ 0 ∧ b = (col / 8 + 1) % 8 then u <<< (8 - col % 8)
  else 0#8

/-- A sprite row XORs its bytes into one framebuffer row. -/
theorem fbGet_blitRow (acc : Memory × Bool) (col r : Nat) (u : Byte) (hc : col < 64) (j : Nat) :
    (blitRow acc col r u).1.fbGet j = acc.1.fbGet j ^^^ (if j / 8 = r then rowByte col u (j % 8) else 0#8) := by
  unfold blitRow rowByte
  simp only
  split
  · rename_i hs
    simp only [blitByte, Memory.fbGet_fbSet, hs]
    by_cases hj : j = 8 * r + col / 8
    · have h1 : j / 8 = r := by omega
      have h2 : j % 8 = col / 8 := by omega
      rw [if_pos hj, if_pos h1, if_pos h2, hj]
    · rw [if_neg hj]
      by_cases h1 : j / 8 = r
      · have h2 : j % 8 ≠ col / 8 := by omega
        simp [h2]
      · simp [h1]
  · rename_i hs
    simp only [blitByte, Memory.fbGet_fbSet]
    by_cases hj : j = 8 * r + col / 8
    · have h1 : j / 8 = r := by omega
      have h2 : j % 8 = col / 8 := by omega
      have h3 : j ≠ 8 * r + (col / 8 + 1) % 8 := by omega
      rw [if_neg h3, if_pos hj, if_pos h1, if_pos h2, hj]
    · by_cases hj' : j = 8 * r + (col / 8 + 1) % 8
      · have h1 : j / 8 = r := by omega
        have h2 : j % 8 = (col / 8 + 1) % 8 := by omega
        have h3 : j % 8 ≠ col / 8 := by omega
        have h4 : 8 * r + (col / 8 + 1) % 8 ≠ 8 * r + col / 8 := by omega
        have h5 : col % 8 ≠ 0 ∧ j % 8 = (col / 8 + 1) % 8 := ⟨hs, h2⟩
        rw [if_pos hj', if_pos h1, if_neg h3, if_pos h5, if_neg h4, hj']
      · rw [if_neg hj', if_neg hj]
        by_cases h1 : j / 8 = r
        · have h2 : j % 8 ≠ col / 8 := by omega
          have h3 : j % 8 ≠ (col / 8 + 1) % 8 := by omega
          simp [h2, h3]
        · simp [h1]

/-- A sprite row collides exactly where one of its bytes meets a set bit. -/
theorem hit_blitRow (acc : Memory × Bool) (col r : Nat) (u : Byte) (hc : col < 64) :
    (blitRow acc col r u).2 = true ↔
      acc.2 = true ∨ ∃ b, b < 8 ∧ acc.1.fbGet (8 * r + b) &&& rowByte col u b ≠ 0#8 := by
  have hb1 : (col / 8 + 1) % 8 ≠ col / 8 := by omega
  unfold blitRow
  simp only
  split
  · rename_i hs
    simp only [blitByte, Bool.or_eq_true, bne_iff_ne]
    refine or_congr_right ⟨fun h => ⟨col / 8, by omega, by simpa [rowByte] using h⟩, ?_⟩
    rintro ⟨b, _, h⟩
    unfold rowByte at h
    split at h
    · rename_i e; rwa [e] at h
    · rw [if_neg (by omega)] at h; simp at h
  · rename_i hs
    simp only [blitByte, Bool.or_eq_true, bne_iff_ne, Memory.fbGet_fbSet, or_assoc]
    rw [if_neg (by omega)]
    refine or_congr_right ⟨?_, ?_⟩
    · rintro (h | h)
      · exact ⟨col / 8, by omega, by simpa [rowByte] using h⟩
      · refine ⟨(col / 8 + 1) % 8, by omega, ?_⟩
        unfold rowByte
        rwa [if_neg hb1, if_pos ⟨hs, rfl⟩]
    · rintro ⟨b, _, h⟩
      unfold rowByte at h
      split at h
      · rename_i e; rw [e] at h; exact .inl h
      · split at h
        · rename_i e; rw [e.2] at h; exact .inr h
        · simp at h

/-- The bits of a row's byte are the row's pixels at that place. -/
theorem rowByte_getLsbD (col : Nat) (u : Byte) (c : Nat) (hcol : col < 64) (hc : c < 64) :
    (rowByte col u (c / 8)).getLsbD (7 - c % 8) =
      (decide ((c + 64 - col) % 64 < 8) && u.getLsbD (7 - (c + 64 - col) % 64)) := by
  unfold rowByte
  split
  · rename_i h
    rw [BitVec.getLsbD_ushiftRight]
    by_cases hm : col % 8 ≤ c % 8
    · rw [show (c + 64 - col) % 64 = c % 8 - col % 8 by omega]
      simp only [show c % 8 - col % 8 < 8 by omega, decide_true, Bool.true_and]
      congr 1; omega
    · rw [BitVec.getLsbD_of_ge _ _ (by omega)]
      simp only [show ¬ (c + 64 - col) % 64 < 8 by omega, decide_false, Bool.false_and]
  · split
    · rename_i h1 h2
      rw [BitVec.getLsbD_shiftLeft]
      by_cases hm : c % 8 < col % 8
      · rw [show (c + 64 - col) % 64 = 8 + c % 8 - col % 8 by omega]
        simp only [show 8 + c % 8 - col % 8 < 8 by omega, show 7 - c % 8 < 8 by omega,
          show ¬ 7 - c % 8 < 8 - col % 8 by omega, decide_true, decide_false, Bool.true_and, Bool.not_false]
        congr 1; omega
      · simp only [show ¬ (c + 64 - col) % 64 < 8 by omega, show 7 - c % 8 < 8 - col % 8 by omega, decide_true,
          decide_false, Bool.false_and, Bool.not_true, Bool.and_false]
    · rename_i h1 h2
      simp only [show ¬ (c + 64 - col) % 64 < 8 by omega, decide_false, Bool.false_and, BitVec.getLsbD_zero]

/-! ### A whole sprite -/

/-- What a sprite XORs into byte `j` of the framebuffer, its first row being row `i` of the draw. -/
def spriteByte (cx cy : Nat) : Nat → List Byte → Nat → Byte
  | _, [], _ => 0#8
  | i, u :: us, j =>
    (if j / 8 = (cy + i) % 32 then rowByte (cx % 64) u (j % 8) else 0#8) ^^^ spriteByte cx cy (i + 1) us j

/-- A draw XORs the sprite's bytes into the framebuffer (43_display.md R86). -/
theorem fbGet_blitRows (cx cy : Nat) (us : List Byte) (acc : Memory × Bool) (i j : Nat) :
    (blitRows cx cy acc i us).1.fbGet j = acc.1.fbGet j ^^^ spriteByte cx cy i us j := by
  induction us generalizing acc i with
  | nil => simp [blitRows, spriteByte]
  | cons u us ih =>
    rw [blitRows, ih, fbGet_blitRow _ _ _ _ (by omega), spriteByte, BitVec.xor_assoc]

/-- A row that the remaining sprite rows do not reach gets nothing. -/
theorem spriteByte_of_not_reached (cx cy : Nat) (us : List Byte) (i j : Nat)
    (h : ∀ k, k < us.length → j / 8 ≠ (cy + i + k) % 32) : spriteByte cx cy i us j = 0#8 := by
  induction us generalizing i with
  | nil => rfl
  | cons u us ih =>
    rw [spriteByte, if_neg (by simpa using h 0 (by simp)), ih (i + 1) (fun k hk => ?_)]
    · simp
    · have := h (k + 1) (by simpa using hk)
      rwa [show cy + (i + 1) + k = cy + i + (k + 1) by omega]

/-- A sprite of at most 32 rows puts one row's byte, or nothing, into each framebuffer byte. -/
theorem spriteByte_eq (cx cy : Nat) (us : List Byte) (i j : Nat) (hl : us.length ≤ 32) (hj : j < 256) :
    spriteByte cx cy i us j =
      (match us[(j / 8 + 32 - (cy + i) % 32) % 32]? with
        | some u => rowByte (cx % 64) u (j % 8)
        | none => 0#8) := by
  induction us generalizing i with
  | nil => rfl
  | cons u us ih =>
    simp only [List.length_cons] at hl
    rw [spriteByte]
    by_cases hr : j / 8 = (cy + i) % 32
    · rw [if_pos hr, spriteByte_of_not_reached cx cy us (i + 1) j (fun k hk => by omega),
        show (j / 8 + 32 - (cy + i) % 32) % 32 = 0 by omega]
      simp
    · rw [if_neg hr, ih (i + 1) (by omega),
        show (j / 8 + 32 - (cy + i) % 32) % 32 = (j / 8 + 32 - (cy + (i + 1)) % 32) % 32 + 1 by omega]
      simp

/-- A draw of at most 32 rows collides exactly where the sprite meets a set bit (43_display.md R87). -/
theorem hit_blitRows (cx cy : Nat) (us : List Byte) (acc : Memory × Bool) (i : Nat) (hl : us.length ≤ 32) :
    (blitRows cx cy acc i us).2 = true ↔
      acc.2 = true ∨ ∃ j, j < 256 ∧ acc.1.fbGet j &&& spriteByte cx cy i us j ≠ 0#8 := by
  induction us generalizing acc i with
  | nil => simp [blitRows, spriteByte]
  | cons u us ih =>
    simp only [List.length_cons] at hl
    rw [blitRows, ih _ _ (by omega), hit_blitRow _ _ _ _ (by omega), or_assoc]
    refine or_congr_right ?_
    have other : ∀ j, j / 8 = (cy + i) % 32 → spriteByte cx cy (i + 1) us j = 0#8 := fun j hj =>
      spriteByte_of_not_reached cx cy us (i + 1) j (fun k hk => by omega)
    constructor
    · rintro (⟨b, hb, h⟩ | ⟨j, hj, h⟩)
      · have hrow : (8 * ((cy + i) % 32) + b) / 8 = (cy + i) % 32 := by omega
        refine ⟨8 * ((cy + i) % 32) + b, by omega, ?_⟩
        rw [spriteByte, if_pos hrow, other _ hrow, show (8 * ((cy + i) % 32) + b) % 8 = b by omega, BitVec.xor_zero]
        exact h
      · have hrow : j / 8 ≠ (cy + i) % 32 := fun hj => h (by rw [other _ hj, BitVec.and_zero])
        refine ⟨j, hj, ?_⟩
        rw [fbGet_blitRow _ _ _ _ (by omega), if_neg hrow, BitVec.xor_zero] at h
        rwa [spriteByte, if_neg hrow, BitVec.zero_xor]
    · rintro ⟨j, hj, h⟩
      by_cases hrow : j / 8 = (cy + i) % 32
      · rw [spriteByte, if_pos hrow, other _ hrow, BitVec.xor_zero] at h
        refine .inl ⟨j % 8, by omega, ?_⟩
        rwa [show 8 * ((cy + i) % 32) + j % 8 = j by omega]
      · rw [spriteByte, if_neg hrow, BitVec.zero_xor] at h
        refine .inr ⟨j, hj, ?_⟩
        rwa [fbGet_blitRow _ _ _ _ (by omega), if_neg hrow, BitVec.xor_zero]

end Sys2Proof.Machine
end

