-- ==== Sys2Proof/Laws/Frame.lean ====
section
/-! SUPPORT. How frames compose, the frame of each update, when bytes of memory stay the same, and what the
fetch and the storing and loading operations can answer. -/

namespace Sys2Proof.Machine

/-! ### Frames -/

theorem Part.Same.rfl {s : State} (p : Part) : p.Same s s := by cases p <;> exact Eq.refl _

theorem Part.Same.trans {s t u : State} {p : Part} (h : p.Same s t) (h' : p.Same t u) : p.Same s u := by
  cases p <;> exact Eq.trans h' h

theorem Frame.refl (s : State) (regs : List RegId) (parts : List Part) : Frame s s regs parts :=
  ⟨fun _ _ => Eq.refl _, fun p _ => Part.Same.rfl p⟩

theorem Frame.mono {s t : State} {r r' : List RegId} {p p' : List Part} (h : Frame s t r p) (hr : r ⊆ r')
    (hp : p ⊆ p') : Frame s t r' p' :=
  ⟨fun x hx => h.regs x (fun hm => hx (hr hm)), fun q hq => h.parts q (fun hm => hq (hp hm))⟩

theorem Frame.trans {s t u : State} {r : List RegId} {p : List Part} (h : Frame s t r p) (h' : Frame t u r p) :
    Frame s u r p :=
  ⟨fun x hx => (h'.regs x hx).trans (h.regs x hx), fun q hq => (h.parts q hq).trans (h'.parts q hq)⟩

theorem Frame.setReg (s : State) (x : RegId) (b : Byte) : Frame s (s.setReg x b) [x] [] :=
  ⟨fun r hr => State.reg_setReg_of_ne s b (by simpa using hr), fun p _ => by cases p <;> exact Eq.refl _⟩

theorem Frame.setFlagged (s : State) (x : RegId) (c b : Byte) : Frame s (s.setFlagged x c b) [vf, x] [] := by
  refine ⟨fun r hr => ?_, fun p _ => by cases p <;> exact Eq.refl _⟩
  simp only [List.mem_cons, List.not_mem_nil, or_false, not_or] at hr
  rw [State.reg_setFlagged, if_neg hr.2, if_neg hr.1]

theorem Frame.withI (s : State) (w : Word) : Frame s (s.withI w) [] [.i] :=
  ⟨fun _ _ => Eq.refl _, fun p hp => by cases p <;> first | exact Eq.refl _ | exact absurd (by simp) hp⟩

theorem Frame.withPc (s : State) (w : Word) : Frame s (s.withPc w) [] [.pc] :=
  ⟨fun _ _ => Eq.refl _, fun p hp => by cases p <;> first | exact Eq.refl _ | exact absurd (by simp) hp⟩

theorem Frame.withStack (s : State) (l : List Word) : Frame s (s.withStack l) [] [.stack] :=
  ⟨fun _ _ => Eq.refl _, fun p hp => by cases p <;> first | exact Eq.refl _ | exact absurd (by simp) hp⟩

theorem Frame.withDt (s : State) (b : Byte) : Frame s (s.withDt b) [] [.dt] :=
  ⟨fun _ _ => Eq.refl _, fun p hp => by cases p <;> first | exact Eq.refl _ | exact absurd (by simp) hp⟩

theorem Frame.withSt (s : State) (b : Byte) : Frame s (s.withSt b) [] [.st] :=
  ⟨fun _ _ => Eq.refl _, fun p hp => by cases p <;> first | exact Eq.refl _ | exact absurd (by simp) hp⟩

theorem Frame.withDirty (s : State) (b : Bool) : Frame s (s.withDirty b) [] [.dirty] :=
  ⟨fun _ _ => Eq.refl _, fun p hp => by cases p <;> first | exact Eq.refl _ | exact absurd (by simp) hp⟩

theorem Frame.withPressed (s : State) (v : Vector Bool 16) : Frame s (s.withPressed v) [] [.pressed] :=
  ⟨fun _ _ => Eq.refl _, fun p hp => by cases p <;> first | exact Eq.refl _ | exact absurd (by simp) hp⟩

theorem Frame.withLatch (s : State) (k : Option KeyId) : Frame s (s.withLatch k) [] [.latch] :=
  ⟨fun _ _ => Eq.refl _, fun p hp => by cases p <;> first | exact Eq.refl _ | exact absurd (by simp) hp⟩

theorem Frame.withDraws (s : State) (n : Nat) : Frame s (s.withDraws n) [] [.draws] :=
  ⟨fun _ _ => Eq.refl _, fun p hp => by cases p <;> first | exact Eq.refl _ | exact absurd (by simp) hp⟩

/-- Memory is no part and no register: a frame says nothing of it. -/
theorem Frame.withMem (s : State) (m : Memory) : Frame s (s.withMem m) [] [] :=
  ⟨fun _ _ => Eq.refl _, fun p _ => by cases p <;> exact Eq.refl _⟩

theorem Frame.withMem_withDirty (s : State) (m : Memory) (b : Bool) :
    Frame s ((s.withMem m).withDirty b) [] [.dirty] :=
  ((Frame.withMem s m).mono (List.nil_subset _) (List.nil_subset _)).trans (Frame.withDirty _ b)

theorem Frame.skipIf (s : State) (c : Bool) : Frame s (s.skipIf c) [] [.pc] := by
  cases c
  · exact Frame.refl s _ _
  · exact Frame.withPc s _

/-! ### Bytes -/

theorem bytesSame_of_mem_eq {s t : State} (h : t.mem = s.mem) : BytesSame s t := memRead_of_mem_eq h

theorem BytesSame.outside {s t : State} (h : BytesSame s t) (a n : Nat) : BytesSameOutside s t a n := fun b _ => h b

theorem bytesSameOutside_of_setMany {s t : State} {a : Nat} {us : List Byte} (h : t.mem = s.mem.setMany a us) :
    BytesSameOutside s t a us.length :=
  fun b hb => memRead_congr fun _ => by rw [h, Memory.get_setMany, dif_neg hb]

theorem bytesSameOutside_of_set {s t : State} {a : Nat} {u : Byte} (h : t.mem = s.mem.set a u) :
    BytesSameOutside s t a 1 := bytesSameOutside_of_setMany (us := [u]) h

/-- Memory that is as before below the framebuffer reads as before outside it. -/
theorem bytesSameOutside_fb {s t : State} (h : ∀ a, a < 0xF00 → t.mem.get a = s.mem.get a) :
    BytesSameOutside s t Config.fbBase Config.fbSize := fun a ha => memRead_congr fun hs => h a (by
  rw [stored_iff] at hs
  simp only [Config.fbBase, Config.fbSize] at ha
  omega)

/-! ### Fetch, store, load -/

theorem fetch_ok_iff (s : State) (w : Word) : fetch s = .ok w ↔ memReadWord s s.pc.toNat = .ok w := by
  unfold fetch
  cases memReadWord s s.pc.toNat <;> simp

/-- Two bytes of storage at `pc` are the next fetch. -/
theorem fetch_of_stored {s : State} (h : stored s.pc.toNat = true) (h' : stored (s.pc.toNat + 1) = true) :
    fetch s = .ok (wordOfBytes (s.mem.get s.pc.toNat) (s.mem.get (s.pc.toNat + 1))) := by
  rw [fetch_ok_iff, memReadWord_ok_iff]
  exact ⟨_, _, memRead_of_stored _ _ h, memRead_of_stored _ _ h', rfl⟩

/-- What a store at the memory operand answers when it goes on. -/
theorem storeAtI_next_iff (i : Instr) (us : List Byte) (s t : State) :
    storeAtI i us s = .next t ↔
      (∀ k, k < us.length → stored (memOperand s + k) = true) ∧
      t = (s.withMem (s.mem.setMany (memOperand s) us)).withDirty
        (s.dirty || (!us.isEmpty && decide (Config.fbBase ≤ memOperand s))) := by
  rw [← memWriteMany_ok_iff]
  unfold storeAtI
  cases memWriteMany s (memOperand s) us <;> simp

/-- When and how a store at the memory operand faults. -/
theorem storeAtI_fault_iff (i : Instr) (us : List Byte) (s : State) (f : Fault) :
    storeAtI i us s = .fault f ↔
      ∃ e, memWriteMany s (memOperand s) us = .error e ∧ f = e.toFault s.here (some (encode i)) := by
  unfold storeAtI
  cases memWriteMany s (memOperand s) us <;> simp [eq_comm]

/-- A state with the same storage and the same address register loads and stores at the same places. -/
theorem memReadMany_of_mem_eq {s t : State} (h : t.mem = s.mem) (a n : Nat) : memReadMany t a n = memReadMany s a n := by
  induction n generalizing a with
  | zero => rfl
  | succ n ih => simp only [memReadMany, memRead_of_mem_eq h, ih]

end Sys2Proof.Machine
end

