-- ==== Sys2Proof/Laws/PerInstr.lean ====
section
/-! SUPPORT. Facts about every instruction as syntax, one lemma per constructor. -/

namespace Sys2Proof.Laws.FitsRow

open Sys2Proof

/-- The word of an instruction fits its row of the opcode map: `encode i AND mask = match`
(30_encoding.md R46). -/
def Statement (i : Instr) : Prop := encode i &&& i.row.mask = i.row.pattern

/-- Format A rows. -/
theorem packA_fits (o : Nat) (nnn : Addr12) (ho : o < 16) (p : Word) (hp : p.toNat = o * 0x1000) :
    packA o nnn &&& 0xF000#16 = p := by
  have := nnn.isLt
  apply BitVec.eq_of_toNat_eq
  rw [toNat_and_F000, packA, field_ofNat _ _ _ (by omega), hp]
  omega

/-- Format XK rows. -/
theorem packXK_fits (o : Nat) (x : RegId) (nn : Byte) (ho : o < 16) (p : Word) (hp : p.toNat = o * 0x1000) :
    packXK o x nn &&& 0xF000#16 = p := by
  have := nn.isLt
  have := x.isLt
  apply BitVec.eq_of_toNat_eq
  rw [toNat_and_F000, packXK, field_ofNat _ _ _ (by omega), hp]
  omega

/-- Format XS rows. -/
theorem packXS_fits (o : Nat) (x : RegId) (nn : Byte) (_ho : o < 16) (p : Word) (hp : p.toNat = o * 0x1000 + nn.toNat) :
    packXK o x nn &&& 0xF0FF#16 = p := by
  have := nn.isLt
  have := x.isLt
  apply BitVec.eq_of_toNat_eq
  rw [toNat_and_F0FF, packXK, field_ofNat _ _ _ (by omega), field_ofNat _ _ _ (by omega), hp]
  omega

/-- Format XYS rows. -/
theorem packXYS_fits (o : Nat) (x y : RegId) (n : Nat) (_ho : o < 16) (hn : n < 16) (p : Word)
    (hp : p.toNat = o * 0x1000 + n) : packXYN o x.val y.val n &&& 0xF00F#16 = p := by
  have := y.isLt
  have := x.isLt
  apply BitVec.eq_of_toNat_eq
  rw [toNat_and_F00F, packXYN, field_ofNat _ _ _ (by omega), field_ofNat _ _ _ (by omega), hp]
  omega

/-- The format XYN row. -/
theorem packXYN_fits (o : Nat) (x y n : Fin 16) (ho : o < 16) (p : Word) (hp : p.toNat = o * 0x1000) :
    packXYN o x.val y.val n.val &&& 0xF000#16 = p := by
  have := y.isLt
  have := x.isLt
  have := n.isLt
  apply BitVec.eq_of_toNat_eq
  rw [toNat_and_F000, packXYN, field_ofNat _ _ _ (by omega), hp]
  omega

theorem clearScreen : Statement .clearScreen := rfl
theorem ret : Statement .ret := rfl
theorem callRCA (nnn : Addr12) : Statement (.callRCA nnn) := packA_fits _ nnn (by decide) _ rfl
theorem jump (nnn : Addr12) : Statement (.jump nnn) := packA_fits _ nnn (by decide) _ rfl
theorem call (nnn : Addr12) : Statement (.call nnn) := packA_fits _ nnn (by decide) _ rfl
theorem skipIfEqConst (x : RegId) (nn : Byte) : Statement (.skipIfEqConst x nn) := packXK_fits _ x nn (by decide) _ rfl
theorem skipIfNotEqConst (x : RegId) (nn : Byte) : Statement (.skipIfNotEqConst x nn) := packXK_fits _ x nn (by decide) _ rfl
theorem skipIfEqReg (x y : RegId) : Statement (.skipIfEqReg x y) := packXYS_fits _ x y _ (by decide) (by decide) _ rfl
theorem setConst (x : RegId) (nn : Byte) : Statement (.setConst x nn) := packXK_fits _ x nn (by decide) _ rfl
theorem addConst (x : RegId) (nn : Byte) : Statement (.addConst x nn) := packXK_fits _ x nn (by decide) _ rfl
theorem setReg (x y : RegId) : Statement (.setReg x y) := packXYS_fits _ x y _ (by decide) (by decide) _ rfl
theorem or (x y : RegId) : Statement (.or x y) := packXYS_fits _ x y _ (by decide) (by decide) _ rfl
theorem and (x y : RegId) : Statement (.and x y) := packXYS_fits _ x y _ (by decide) (by decide) _ rfl
theorem xor (x y : RegId) : Statement (.xor x y) := packXYS_fits _ x y _ (by decide) (by decide) _ rfl
theorem addReg (x y : RegId) : Statement (.addReg x y) := packXYS_fits _ x y _ (by decide) (by decide) _ rfl
theorem sub (x y : RegId) : Statement (.sub x y) := packXYS_fits _ x y _ (by decide) (by decide) _ rfl
theorem shr (x y : RegId) : Statement (.shr x y) := packXYS_fits _ x y _ (by decide) (by decide) _ rfl
theorem subRev (x y : RegId) : Statement (.subRev x y) := packXYS_fits _ x y _ (by decide) (by decide) _ rfl
theorem shl (x y : RegId) : Statement (.shl x y) := packXYS_fits _ x y _ (by decide) (by decide) _ rfl
theorem skipIfNotEqReg (x y : RegId) : Statement (.skipIfNotEqReg x y) := packXYS_fits _ x y _ (by decide) (by decide) _ rfl
theorem setAddr (nnn : Addr12) : Statement (.setAddr nnn) := packA_fits _ nnn (by decide) _ rfl
theorem jumpWithOffset (nnn : Addr12) : Statement (.jumpWithOffset nnn) := packA_fits _ nnn (by decide) _ rfl
theorem getRandom (x : RegId) (nn : Byte) : Statement (.getRandom x nn) := packXK_fits _ x nn (by decide) _ rfl
theorem draw (x y : RegId) (n : Fin 16) : Statement (.draw x y n) := packXYN_fits _ x y n (by decide) _ rfl
theorem skipIfKeyPressed (x : RegId) : Statement (.skipIfKeyPressed x) := packXS_fits _ x _ (by decide) _ rfl
theorem skipIfKeyNotPressed (x : RegId) : Statement (.skipIfKeyNotPressed x) := packXS_fits _ x _ (by decide) _ rfl
theorem getDelay (x : RegId) : Statement (.getDelay x) := packXS_fits _ x _ (by decide) _ rfl
theorem keyWait (x : RegId) : Statement (.keyWait x) := packXS_fits _ x _ (by decide) _ rfl
theorem setDelay (x : RegId) : Statement (.setDelay x) := packXS_fits _ x _ (by decide) _ rfl
theorem setSound (x : RegId) : Statement (.setSound x) := packXS_fits _ x _ (by decide) _ rfl
theorem addAddr (x : RegId) : Statement (.addAddr x) := packXS_fits _ x _ (by decide) _ rfl
theorem loadGlyph (x : RegId) : Statement (.loadGlyph x) := packXS_fits _ x _ (by decide) _ rfl
theorem storeBcd (x : RegId) : Statement (.storeBcd x) := packXS_fits _ x _ (by decide) _ rfl
theorem storeBytes (x : RegId) : Statement (.storeBytes x) := packXS_fits _ x _ (by decide) _ rfl
theorem loadBytes (x : RegId) : Statement (.loadBytes x) := packXS_fits _ x _ (by decide) _ rfl

end Sys2Proof.Laws.FitsRow
end

