-- ==== Sys2Proof/Tests/Slice0.lean ====
section
/-! SUPPORT. Tests of the model, their expected results from the spec's encodings (30_encoding.md) and its test
vectors (95_test_vectors.md W1 to W15, V1 to V156), and one witness for the hypotheses of each statement. -/

namespace Sys2Proof.Tests

open Sys2Proof Sys2Proof.Machine

/-! ### Helpers -/

/-- Reset with these registers set. -/
def regs (vs : List (RegId × Byte)) : State := vs.foldl (fun s p => s.setReg p.1 p.2) State.reset

/-- With these bytes stored from `a` on. -/
def mem (a : Nat) (us : List Byte) (s : State) : State := s.withMem (s.mem.setMany a us)

/-- One step that runs the word `w` at `pc`. -/
def run (w : Nat) (s : State) : Result := step (s.withFetchWord 16 w)

/-- One step that runs `w` goes on, to a state where `p` holds. -/
def after (w : Nat) (s : State) (p : State → Bool) : Bool :=
  match run w s with
  | .next t => p t
  | _ => false

/-- One step that runs `w` faults with this record. -/
def faults (w : Nat) (s : State) (f : Fault) : Bool :=
  match run w s with
  | .fault g => g == f
  | _ => false

/-- A fault used where any will do. -/
def someFault : Fault := .stackUnderflow 0x200 0x00EE

/-! ### Well-formedness: the one check, and terms it refuses -/

theorem test_wellFormed_refuses_00E0 : (Instr.callRCA 0x0E0).wellFormed = false := by decide
theorem test_wellFormed_refuses_00EE : (Instr.callRCA 0x0EE).wellFormed = false := by decide
theorem test_wellFormed_accepts : (Instr.callRCA 0x0E1).wellFormed = true ∧ (Instr.draw 15 15 15).wellFormed = true := by
  decide

/-! ### Decoding: a word of every row of 30_encoding.md R46, written out bit by bit: `o`, `x`, `y`, `n` -/

theorem test_decode_zero_family :
    decodeWord 0b0000_0000_1110_0000 = .ok (.clearScreen) ∧
    decodeWord 0b0000_0000_1110_1110 = .ok (.ret) ∧
    decodeWord 0b0000_0000_0000_0000 = .ok (.callRCA 0x000) ∧
    decodeWord 0b0000_0001_0010_0011 = .ok (.callRCA 0x123) := by and_intros <;> rfl

theorem test_decode_jump_and_call :
    decodeWord 0b0001_1010_1011_1100 = .ok (.jump 0xABC) ∧
    decodeWord 0b0010_0010_0001_0000 = .ok (.call 0x210) ∧
    decodeWord 0b1011_1111_1111_1111 = .ok (.jumpWithOffset 0xFFF) := by and_intros <;> rfl

theorem test_decode_skips :
    decodeWord 0b0011_0011_0010_1010 = .ok (.skipIfEqConst 3 0x2A) ∧
    decodeWord 0b0100_0011_0010_1010 = .ok (.skipIfNotEqConst 3 0x2A) ∧
    decodeWord 0b0101_0001_0010_0000 = .ok (.skipIfEqReg 1 2) ∧
    decodeWord 0b1001_0001_0010_0000 = .ok (.skipIfNotEqReg 1 2) := by and_intros <;> rfl

theorem test_decode_constants :
    decodeWord 0b0110_1010_0010_1011 = .ok (.setConst 10 0x2B) ∧
    decodeWord 0b0111_0000_0000_0001 = .ok (.addConst 0 0x01) ∧
    decodeWord 0b1100_0011_0000_1111 = .ok (.getRandom 3 0x0F) := by and_intros <;> rfl

theorem test_decode_eight_family :
    decodeWord 0b1000_0001_0010_0000 = .ok (.setReg 1 2) ∧
    decodeWord 0b1000_0000_0001_0001 = .ok (.or 0 1) ∧
    decodeWord 0b1000_0000_0001_0010 = .ok (.and 0 1) ∧
    decodeWord 0b1000_0000_0001_0011 = .ok (.xor 0 1) ∧
    decodeWord 0b1000_0000_0001_0100 = .ok (.addReg 0 1) ∧
    decodeWord 0b1000_0000_0001_0101 = .ok (.sub 0 1) ∧
    decodeWord 0b1000_0000_0001_0110 = .ok (.shr 0 1) ∧
    decodeWord 0b1000_0000_0001_0111 = .ok (.subRev 0 1) ∧
    decodeWord 0b1000_0001_0010_1110 = .ok (.shl 1 2) := by and_intros <;> rfl

theorem test_decode_address_and_draw :
    decodeWord 0b1010_0010_1111_0000 = .ok (.setAddr 0x2F0) ∧
    decodeWord 0b1101_0001_0010_1111 = .ok (.draw 1 2 15) := by and_intros <;> rfl

theorem test_decode_keys :
    decodeWord 0b1110_0001_1001_1110 = .ok (.skipIfKeyPressed 1) ∧
    decodeWord 0b1110_0001_1010_0001 = .ok (.skipIfKeyNotPressed 1) := by and_intros <;> rfl

theorem test_decode_f_family :
    decodeWord 0b1111_0000_0000_0111 = .ok (.getDelay 0) ∧
    decodeWord 0b1111_0011_0000_1010 = .ok (.keyWait 3) ∧
    decodeWord 0b1111_0011_0001_0101 = .ok (.setDelay 3) ∧
    decodeWord 0b1111_0100_0001_1000 = .ok (.setSound 4) ∧
    decodeWord 0b1111_0010_0001_1110 = .ok (.addAddr 2) ∧
    decodeWord 0b1111_0000_0010_1001 = .ok (.loadGlyph 0) ∧
    decodeWord 0b1111_0000_0011_0011 = .ok (.storeBcd 0) ∧
    decodeWord 0b1111_1111_0101_0101 = .ok (.storeBytes 15) ∧
    decodeWord 0b1111_0010_0110_0101 = .ok (.loadBytes 2) := by and_intros <;> rfl

/-- V8, V10, V13, V15, V20, V23 to V26. -/
theorem test_decode_illegal :
    [0x5121, 0x8128, 0x812F, 0x912F, 0xE19F, 0xF000, 0xF01F, 0xF275, 0xF0FF].all
      (fun w => match decodeWord w with | .error e => e == .decodeError w | .ok _ => false) = true := by decide

/-- The table numbers an instruction's bits from the low end of its one word. -/
theorem test_decodeTableWord : decodeTableWord 16 0x8014 = some (.addReg 0 1) ∧ decodeTableWord 16 0x8128 = none := by
  decide

/-! ### One step of each instruction -/

/-- V62 and W10. -/
theorem test_return :
    after 0x00EE (State.reset.withStack [0x206]) (fun t => t.pc == 0x206 && t.stack == []) = true ∧
    faults 0x00EE (State.reset) (.stackUnderflow 0x200 0x00EE) = true := by decide

/-- V29 and V38 (fetched from ROM past the table). -/
theorem test_callRCA :
    faults 0x0123 (State.reset) (.unsupported 0x200 0x0123) = true ∧
    step (State.reset.withPc 0x050) = .fault (.unsupported 0x050 0x0000) := by and_intros <;> first | decide | rfl

/-- W2 and V64. -/
theorem test_jump :
    after 0x1ABC (State.reset) (fun t => t.pc == 0xABC) = true ∧
    after 0x1300 (State.reset.withPc 0x300) (fun t => t.pc == 0x300) = true := by decide

/-- V61 and W10. -/
theorem test_call :
    after 0x2300 (State.reset) (fun t => t.stack == [0x202] && t.pc == 0x300) = true ∧
    faults 0x2300 (State.reset.withStack (List.replicate 16 0x202)) (.stackOverflow 0x200 0x2300) = true := by decide

/-- V50 and V51. -/
theorem test_skipIfEqConst :
    after 0x3142 (regs [(1, 0x42)]) (fun t => t.pc == 0x204) = true ∧
    after 0x3142 (regs [(1, 0x41)]) (fun t => t.pc == 0x202) = true := by decide

/-- V52 and V53. -/
theorem test_skipIfNotEqConst :
    after 0x4142 (regs [(1, 0x41)]) (fun t => t.pc == 0x204) = true ∧
    after 0x4142 (regs [(1, 0x42)]) (fun t => t.pc == 0x202) = true := by decide

/-- V54 and V56. -/
theorem test_skipIfEqReg :
    after 0x5120 (regs [(1, 3), (2, 3)]) (fun t => t.pc == 0x204) = true ∧
    after 0x5550 (regs [(5, 9)]) (fun t => t.pc == 0x204) = true := by decide

/-- V55 and V57. -/
theorem test_skipIfNotEqReg :
    after 0x9120 (regs [(1, 3), (2, 4)]) (fun t => t.pc == 0x204) = true ∧
    after 0x9550 (regs [(5, 9)]) (fun t => t.pc == 0x202) = true := by decide

/-- V59 and V60. -/
theorem test_jumpWithOffset :
    after 0xBFFF (regs [(0, 0xFF)]) (fun t => t.pc == 0x10FE) = true ∧
    after 0xB205 (regs [(0, 0x02), (2, 0x50)]) (fun t => t.pc == 0x207) = true := by decide

/-- V65. -/
theorem test_setConst :
    after 0x6A2A (State.reset) (fun t => t.reg 10 == 0x2A && t.pc == 0x202) = true := by decide

/-- V66 and V67. -/
theorem test_addConst :
    after 0x7301 (regs [(3, 0xFF), (15, 0x07)]) (fun t => t.reg 3 == 0x00 && t.reg 15 == 0x07) = true ∧
    after 0x73F0 (regs [(3, 0x10)]) (fun t => t.reg 3 == 0x00) = true := by decide

/-- V68. -/
theorem test_setReg :
    after 0x8010 (regs [(1, 0x9C)]) (fun t => t.reg 0 == 0x9C && t.reg 1 == 0x9C) = true := by decide

/-- V69. -/
theorem test_or :
    after 0x8011 (regs [(0, 0xF0), (1, 0x3C), (15, 0x05)]) (fun t => t.reg 0 == 0xFC && t.reg 15 == 0x05) = true := by decide

/-- V70. -/
theorem test_and :
    after 0x8012 (regs [(0, 0xF0), (1, 0x3C)]) (fun t => t.reg 0 == 0x30) = true := by decide

/-- V71. -/
theorem test_xor :
    after 0x8013 (regs [(0, 0xF0), (1, 0x3C)]) (fun t => t.reg 0 == 0xCC) = true := by decide

/-- V75 and V76. -/
theorem test_addReg :
    after 0x8F14 (regs [(15, 0x01), (1, 0xFF)]) (fun t => t.reg 15 == 0x00) = true ∧
    after 0x80F4 (regs [(0, 0x02), (15, 0xFF)]) (fun t => t.reg 0 == 0x01 && t.reg 15 == 1) = true := by decide

/-- W6 and V79. -/
theorem test_sub :
    after 0x8015 (regs [(0, 0x00), (1, 0x01)]) (fun t => t.reg 0 == 0xFF && t.reg 15 == 0) = true ∧
    after 0x8F15 (regs [(15, 0x0A), (1, 0x03)]) (fun t => t.reg 15 == 0x07) = true := by decide

/-- V83 and V88. -/
theorem test_shr :
    after 0x8016 (regs [(0, 0x77), (1, 0x02)]) (fun t => t.reg 0 == 0x01 && t.reg 15 == 0) = true ∧
    after 0x8F16 (regs [(1, 0x03)]) (fun t => t.reg 15 == 0x01) = true := by decide

/-- V80 and V81. -/
theorem test_subRev :
    after 0x8017 (regs [(0, 0x04), (1, 0x0A)]) (fun t => t.reg 0 == 0x06 && t.reg 15 == 1) = true ∧
    after 0x8017 (regs [(0, 0x01), (1, 0x00)]) (fun t => t.reg 0 == 0xFF && t.reg 15 == 0) = true := by decide

/-- W9 and V86. -/
theorem test_shl :
    after 0x801E (regs [(1, 0x81)]) (fun t => t.reg 0 == 0x02 && t.reg 15 == 1 && t.reg 1 == 0x81) = true ∧
    after 0x801E (regs [(1, 0x7F)]) (fun t => t.reg 0 == 0xFE && t.reg 15 == 0) = true := by decide

/-- V91 and V90: any random byte, masked. -/
theorem test_getRandom (s : State) : ∃ t, exec (.getRandom 3 0xFF) s = .next t ∧ t.reg 3 = Config.rnd s.draws :=
  ⟨_, rfl, by
    simp only [State.draw, constOperand, State.reg_setReg_same]
    exact BitVec.and_allOnes⟩
theorem test_getRandom_mask_zero (s : State) : ∃ t, exec (.getRandom 3 0x00) s = .next t ∧ t.reg 3 = 0 :=
  ⟨_, rfl, by simp [constOperand]⟩

/-- V92. -/
theorem test_setAddr :
    after 0xA1A0 (State.reset) (fun t => t.i == 0x1A0) = true := by decide

/-- V96 and V97. -/
theorem test_addAddr :
    after 0xF01E ((regs [(0, 0xFF)]).withI 0xFFF) (fun t => t.i == 0x0FE && t.reg 15 == 1) = true ∧
    after 0xFF1E ((regs [(15, 0x05)]).withI 0x100) (fun t => t.i == 0x105 && t.reg 15 == 0) = true := by decide

/-- V99 and V100. -/
theorem test_loadGlyph :
    after 0xF029 (regs [(0, 0x0F)]) (fun t => t.i == 0x04B) = true ∧
    faults 0xF029 (regs [(0, 0x10)]) (.invalidGlyphIndex 0x200 0xF029 0x10) = true := by decide

/-- W14 and V155. -/
theorem test_storeBcd :
    after 0xF033 ((regs [(0, 234)]).withI 0x300) (fun t => (t.mem.get 0x300, t.mem.get 0x301, t.mem.get 0x302) == (2, 3, 4) && !t.dirty) = true ∧
    faults 0xF033 ((regs [(0, 1)]).withI 0x19F) (.readOnlyWrite 0x200 (some 0xF033) 0x19F) = true := by decide

/-- V46 and V110. -/
theorem test_storeBytes :
    after 0xF055 ((regs [(0, 0xAA)]).withI 0xF00) (fun t => t.mem.fbGet 0 == 0xAA && t.dirty && t.i == 0xF00) = true ∧
    faults 0xFF55 (State.reset.withI 0xE91) (.reservedRegionAccess 0x200 (some 0xFF55) 0xEA0) = true := by decide

/-- R83, its example, and V43. -/
theorem test_loadBytes :
    after 0xF265 (mem 0x300 [2, 3, 4] (State.reset.withI 0x300)) (fun t => t.reg 0 == 2 && t.reg 1 == 3 && t.reg 2 == 4 && t.reg 3 == 0) = true ∧
    faults 0xF165 (State.reset.withI 0xFFF) (.addressOutOfRange 0x200 (some 0xF165) 0x1000) = true := by decide

/-- V113, at one byte. -/
theorem test_clearScreen : after 0x00E0 (mem 0xF03 [0xFF] (regs [(15, 7)]))
    (fun t => t.mem.fbGet 3 == 0 && t.dirty && t.reg 15 == 7) = true := by decide +kernel

/-- V118. -/
theorem test_draw_wraps_and_straddles :
    after 0xD011 (mem 0x300 [0xFF] ((regs [(0, 60)]).withI 0x300)) (fun t => t.mem.fbGet 7 == 0x0F && t.mem.fbGet 0 == 0xF0 && t.mem.fbGet 8 == 0 && t.reg 15 == 0) = true := by decide

/-- V125. -/
theorem test_draw_reads_before_it_draws :
    after 0xD012 (mem 0xF00 [0xAA, 0x0F] ((regs [(0, 8)]).withI 0xF00)) (fun t => t.mem.fbGet 1 == 0xA5 && t.mem.fbGet 9 == 0x0F && t.mem.fbGet 0 == 0xAA && t.reg 15 == 1) = true := by decide

/-- V132 and V136. -/
theorem test_skipIfKeyPressed :
    after 0xE29E ((regs [(2, 5)]).setPressed 5 true) (fun t => t.pc == 0x204) = true ∧
    faults 0xE29E (regs [(2, 0x10)]) (.invalidKeyIndex 0x200 0xE29E 0x10) = true := by decide

/-- V134 and V135. -/
theorem test_skipIfKeyNotPressed :
    after 0xE2A1 (regs [(2, 5)]) (fun t => t.pc == 0x204) = true ∧
    after 0xE2A1 ((regs [(2, 5)]).setPressed 5 true) (fun t => t.pc == 0x202) = true := by decide

/-- V144. -/
theorem test_getDelay :
    after 0xF307 (State.reset.withDt 0x3C) (fun t => t.reg 3 == 0x3C && t.dt == 0x3C) = true := by decide

/-- W13 and V143. -/
theorem test_keyWait :
    after 0xF30A (State.reset) (fun t => t.pc == 0x200) = true ∧
    after 0xFF0A (State.reset.withLatch (some 3)) (fun t => t.reg 15 == 3 && t.latch == none && t.pc == 0x202) = true := by decide

/-- V145. -/
theorem test_setDelay :
    after 0xF315 (regs [(3, 0x3C)]) (fun t => t.dt == 0x3C) = true := by decide

/-- V146. -/
theorem test_setSound :
    after 0xF418 (regs [(4, 0x02)]) (fun t => t.st == 0x02) = true := by decide

/-! ### The fetch -/

/-- V32, V37 and V28. -/
theorem test_fetch_faults :
    step (State.reset.withPc 0x19F) = .fault (.reservedRegionAccess 0x19F none 0x1A0) ∧
    step (State.reset.withPc 0xFFF) = .fault (.addressOutOfRange 0xFFF none 0x1000) ∧
    faults 0x8128 (State.reset) (.decodeError 0x200 0x8128) = true := by and_intros <;> first | decide | rfl

/-- V39 and V36. -/
theorem test_fetch_odd_and_framebuffer :
    after 0x6A55 (State.reset.withPc 0x201) (fun t => t.reg 10 == 0x55 && t.pc == 0x203) = true ∧
    after 0x6007 (State.reset.withPc 0xF00) (fun t => t.reg 0 == 0x07 && t.pc == 0xF02) = true := by decide

/-- V28 and V41: the whole record of a fault. -/
theorem test_faultRecord :
    faultRecord (.decodeError 0x200 0x8128) = ⟨1, .decodeError, 0x200, some 0x8128, some 0x8128⟩ ∧
    faultRecord (.reservedRegionAccess 0x200 (some 0xF065) 0x1A0) =
      ⟨5, .reservedRegionAccess, 0x200, some 0xF065, some 0x1A0⟩ := by decide

/-! ### Host calls -/

/-- V139, V140 and V138. -/
theorem test_host_keys :
    (runCalls [.keydown 1, .keydown 2, .keyup 2] State.reset).latch = none ∧
    (runCalls [.keydown 1, .keydown 2, .keyup 1] State.reset).latch = some 2 ∧
    hostCall (.keydown 16) State.reset = (State.reset, .ok) := by decide

/-- V147 and V148. -/
theorem test_host_tick :
    (hostCall .tick (State.reset.withDt 1)).1.dt = 0 ∧
    (hostCall .tick (State.reset.withSt 5)).1.st = 4 := by decide

/-- V152, V153 and W15. -/
theorem test_host_load :
    (hostCall (.load [0x00] 0x1FF) State.reset).2 = .boundsViolation ∧
    (hostCall (.load [] 0xEA0) State.reset).2 = .ok ∧
    (runCalls [.load [0x60, 0x2A] 0x200, .step] State.reset).reg 0 = 0x2A := by decide

/-- V130. -/
theorem test_host_poll :
    hostCall .pollAndClearDirty (State.reset.withDirty true) = (State.reset, .bit true) ∧
    hostCall .pollAndClearDirty State.reset = (State.reset, .bit false) := by decide

/-- V154. -/
theorem test_host_faulted :
    [HostCall.step, .tick, .load [] 0x200, .keydown 1, .keyup 1, .display, .pollAndClearDirty].all
      (fun c => decide (hostCall c (State.reset.withStatus (.faulted someFault)) =
        (State.reset.withStatus (.faulted someFault), .refused))) = true := by decide

/-! ### Witnesses: for each statement with hypotheses, a state and operands that meet them -/

/-- A state whose next instruction is `0x6A2B`. -/
def running : State := State.reset.withFetchWord 16 0x6A2B

/-- Where a step of it leads. -/
def ran : State := (running.withPc 0x202).setReg 10 0x2B

theorem running_inv : running.Inv :=
  ⟨by decide, by decide, by decide, by decide, by decide, fun a h => (by cases h), fun k h => (by cases h)⟩

theorem witness_DecodeOfEncodeIsIdentity : (Instr.callRCA 0x0E1).WellFormed ∧ (Instr.loadBytes 15).WellFormed := by decide

theorem witness_EncodeOfDecodeIsIdentity : decodeWord 0x0000 = .ok (.callRCA 0x000) ∧ decodeWord 0xFF65 = .ok (.loadBytes 15) := by and_intros <;> rfl

theorem witness_DecodedOperandsAreFields : decodeWord 0xD12F = .ok (.draw 1 2 15) := by and_intros <;> rfl

theorem witness_IllegalWordsAreExactlyTheListed :
    illegal 0x5001 = true ∧ illegal 0x5000 = false ∧ illegal 0xF066 = true ∧
    (State.reset.withFetchWord 16 0x8128).status = .running ∧ fetch (State.reset.withFetchWord 16 0x8128) = .ok 0x8128 ∧
    illegal 0x8128 = true := by and_intros <;> rfl

theorem witness_InstructionIsTwoBytes : (Instr.jump 0xFFF).WellFormed := by decide

/-- The five clauses, at the edges of the regions. -/
theorem witness_StepFetchesAdvancesDecodesExecutes :
    (State.reset.withStatus (.faulted someFault)).status = .faulted someFault ∧
    (State.reset.status = .running ∧
      memRead (State.reset.withPc 0x1A0) 0x1A0 = .error (.reservedRegionAccess 0x1A0)) ∧
    (memRead (State.reset.withPc 0x19F) 0x19F = .ok 0 ∧
      memRead (State.reset.withPc 0x19F) 0x1A0 = .error (.reservedRegionAccess 0x1A0)) ∧
    (memRead (State.reset.withFetchWord 16 0x8128) 0x200 = .ok 0x81 ∧
      memRead (State.reset.withFetchWord 16 0x8128) 0x201 = .ok 0x28 ∧
      decodeWord (wordOfBytes 0x81 0x28) = .error (.decodeError 0x8128)) ∧
    (memRead running 0x200 = .ok 0x6A ∧ memRead running 0x201 = .ok 0x2B ∧
      decodeWord (wordOfBytes 0x6A 0x2B) = .ok (.setConst 10 0x2B)) := by and_intros <;> rfl

/-- A fault in the fetch, and one after it. -/
theorem witness_FaultRecordNamesTheInstruction :
    State.reset.status = .running ∧
    step (State.reset.withPc 0x1A0) = .fault (.reservedRegionAccess 0x1A0 none 0x1A0) ∧
    step (State.reset.withFetchWord 16 0x00EE) = .fault (.stackUnderflow 0x200 0x00EE) := by and_intros <;> rfl

theorem witness_FaultKindsByInstruction : exec .ret State.reset = .fault (.stackUnderflow 0x1FE 0x00EE) := by and_intros <;> rfl

theorem witness_FaultIsTakenReturnedAndTerminal :
    State.reset.status = .running ∧
    step (State.reset.withFetchWord 16 0x00EE) = .fault (.stackUnderflow 0x200 0x00EE) ∧
    running.status = .running ∧ step running = .next ran := by and_intros <;> rfl

theorem witness_FaultedBlockRefusesEveryCall :
    (State.reset.withStatus (.faulted someFault)).status = .faulted someFault := by decide

/-- Both ends of every range of addresses. -/
theorem witness_ReadByRegion :
    memRead State.reset 0x50 = .ok 0 ∧ memRead State.reset 0x19F = .ok 0 ∧
    memRead State.reset 0x1A0 = .error (.reservedRegionAccess 0x1A0) ∧
    memRead State.reset 0x1FF = .error (.reservedRegionAccess 0x1FF) ∧
    memRead State.reset 0x200 = .ok (State.reset.mem.get 0x200) ∧ memRead State.reset 0xE9F = .ok (State.reset.mem.get 0xE9F) ∧
    memRead State.reset 0xEA0 = .error (.reservedRegionAccess 0xEA0) ∧
    memRead State.reset 0xEFF = .error (.reservedRegionAccess 0xEFF) ∧
    memRead State.reset 0xF00 = .ok (State.reset.mem.fbGet 0) ∧ memRead State.reset 0xFFF = .ok (State.reset.mem.fbGet 255) ∧
    memRead State.reset 0x1000 = .error (.addressOutOfRange 0x1000) := by and_intros <;> rfl

/-- The glyph table's two ends read as the free value. -/
theorem witness_ReadByRegion_glyphs :
    memRead State.reset 0 = .ok (Config.glyphTable 0) ∧ memRead State.reset 79 = .ok (Config.glyphTable 79) := ⟨rfl, rfl⟩

/-- Both ends of every range of addresses. -/
theorem witness_WriteByRegion :
    memWrite State.reset 0x1 9 = .error (.readOnlyWrite 0x1) ∧ memWrite State.reset 0x19F 9 = .error (.readOnlyWrite 0x19F) ∧
    memWrite State.reset 0x1A0 9 = .error (.reservedRegionAccess 0x1A0) ∧
    memWrite State.reset 0x1FF 9 = .error (.reservedRegionAccess 0x1FF) ∧
    memWrite State.reset 0x200 9 = .ok (mem 0x200 [9] State.reset) ∧ memWrite State.reset 0xE9F 9 = .ok (mem 0xE9F [9] State.reset) ∧
    memWrite State.reset 0xEA0 9 = .error (.reservedRegionAccess 0xEA0) ∧
    memWrite State.reset 0xEFF 9 = .error (.reservedRegionAccess 0xEFF) ∧
    memWrite State.reset 0xF00 9 = .ok ((mem 0xF00 [9] State.reset).withDirty true) ∧
    memWrite State.reset 0xFFF 9 = .ok ((mem 0xFFF [9] State.reset).withDirty true) ∧
    memWrite State.reset 0x1000 9 = .error (.addressOutOfRange 0x1000) := by and_intros <;> rfl

theorem witness_WordReadIsTwoByteReads : memReadWord running 0x200 = .ok 0x6A2B ∧ memReadWord running 0xFFE = .ok 0x0000 := by and_intros <;> rfl

theorem witness_FetchSeesEarlierStores :
    memWriteMany State.reset State.reset.pc.toNat [0x12, 0x00] = .ok (mem 0x200 [0x12, 0x00] State.reset) := by and_intros <;> rfl

/-- The shortest and the longest program. -/
theorem witness_LoadedProgramIsFetchedFirst :
    ([] : List Byte).length ≤ 3230 ∧ (List.replicate 3230 (0 : Byte)).length ≤ 3230 :=
  ⟨Nat.zero_le _, Nat.le_of_eq (List.length_replicate ..)⟩

theorem witness_ConstructionValues : (79 : Nat) < 80 ∧ (80 : Nat) ≤ 80 ∧ (0x19F : Nat) < 0x1A0 := by decide

theorem witness_StepKeepsInvariant : running.Inv ∧ step running = .next ran := ⟨running_inv, by rfl⟩

theorem witness_HostCallsKeepInvariant : running.Inv ∧ (hostCall .tick running).1.status = .running := ⟨running_inv, by decide⟩

theorem witness_SafeRunsStayInBounds :
    SafeRun [.load [0x60, 0x2A] 0x200, .keydown 5, .tick] (State.construct Config.Init.zero) := by
  rw [← reset_eq_construct]
  unfold SafeRun
  decide

theorem witness_EveryInstructionFrame :
    exec (.storeBcd 0) (State.reset.withI 0x300) = .next (State.reset.withI 0x300) ∧
    exec (.setConst 10 0x2B) (running.withPc 0x202) = .next ran := by and_intros <;> rfl

theorem witness_PcIsWrittenByTheseEventsOnly :
    running.status = .running ∧ fetch running = .ok 0x6A2B ∧ decodeWord 0x6A2B = .ok (.setConst 10 0x2B) ∧
    step running = .next ran ∧ HostCall.tick ≠ .step := by and_intros <;> first | decide | rfl

theorem witness_DirtyIsSetByWritesAndClearedByPollOnly :
    exec (.setConst 10 0x2B) (running.withPc 0x202) = .next ran ∧ running.status = .running ∧
    HostCall.tick ≠ .step ∧ HostCall.tick ≠ .pollAndClearDirty := by and_intros <;> first | decide | rfl

theorem witness_ReturnPops : (State.reset.withStack [0x206]).stack = [0x206] ∧ State.reset.stack = [] := by decide

/-- The last call that fits, and the first that does not. -/
theorem witness_CallPushesReturnAddress :
    (State.reset.withStack (List.replicate 15 0x202)).depth < 16 ∧
    (State.reset.withStack (List.replicate 16 0x202)).depth = 16 := by decide

theorem witness_SixteenCallsThenOverflow : State.reset.depth + (List.replicate 16 (0x300 : Addr12)).length = 16 := by decide

theorem witness_SkipOnConstant : (regs [(1, 7)]).reg 1 = 7 ∧ (regs [(1, 7)]).reg 1 ≠ 8 := by decide

theorem witness_SkipOnRegisters :
    (regs [(1, 7), (2, 7)]).reg 1 = (regs [(1, 7), (2, 7)]).reg 2 ∧ (regs [(1, 7)]).reg 1 ≠ (regs [(1, 7)]).reg 2 := by decide

theorem witness_SelfJumpAndKeyWaitAreFixedPoints :
    State.reset.status = .running ∧ State.reset.pc = (0x200 : Addr12).setWidth 16 ∧
    fetch (State.reset.withFetchWord 16 0x1200) = .ok (encode (.jump 0x200)) ∧ State.reset.latch = none ∧
    fetch (State.reset.withFetchWord 16 0xF30A) = .ok (encode (.keyWait 3)) := by and_intros <;> rfl

theorem witness_AddRegisterCarries : (0 : RegId) ≠ 15 := by decide
theorem witness_SubtractionsBorrow : (14 : RegId) ≠ 15 := by decide
theorem witness_ShiftsMoveTheSourceRegister : (1 : RegId) ≠ 15 := by decide

theorem witness_RandomByteIsMasked (n : Nat) : ∃ t, exec (.getRandom 3 0xFF) (State.reset.withDraws n) = .next t := ⟨_, rfl⟩

theorem witness_LoadGlyphPointsAtDigit :
    ((regs [(0, 15)]).reg 0).toNat ≤ 15 ∧ 15 < ((regs [(0, 16)]).reg 0).toNat := by decide

/-- The last three bytes of RAM and of the framebuffer. -/
theorem witness_StoreBcdStoresDigits :
    (∀ k, k < 3 → stored (memOperand (State.reset.withI 0xE9D) + k) = true) ∧
    (∀ k, k < 3 → stored (memOperand (State.reset.withI 0xFFD) + k) = true) := by decide

/-- The last sixteen bytes of RAM, and the last byte of the framebuffer. -/
theorem witness_StoreBytesStoresRegisters :
    (∀ k, k < 16 → stored (memOperand (State.reset.withI 0xE90) + k) = true) ∧
    stored (memOperand (State.reset.withI 0xFFF) + (0 : RegId).val) = true := by decide

/-- Sixteen bytes of RAM, and the last byte of ROM. -/
theorem witness_LoadBytesLoadsRegisters :
    (∀ k, k ≤ (15 : RegId).val → ∃ u, memRead (State.reset.withI 0xE90) (memOperand (State.reset.withI 0xE90) + k) = .ok u) ∧
    memRead (State.reset.withI 0x19F) (memOperand (State.reset.withI 0x19F)) = .ok 0 := by
  refine ⟨fun k hk => ⟨_, memRead_of_stored _ _ ?_⟩, by rfl⟩
  have hk : k ≤ 15 := hk
  have hm : memOperand (State.reset.withI 0xE90) = 0xE90 := by decide
  rw [stored_iff, hm]
  omega

/-- The second byte of an access fails, at the end of RAM and at the end of memory. -/
theorem witness_FirstFailingAddressIsReported :
    (1 ≤ (1 : RegId).val ∧ memRead (State.reset.withI 0xE9F) 0xE9F = .ok 0 ∧
      memRead (State.reset.withI 0xE9F) 0xEA0 = .error (.reservedRegionAccess 0xEA0)) ∧
    (1 < (2 : Fin 16).val ∧ memRead (State.reset.withI 0xFFF) 0xFFF = .ok 0 ∧
      memRead (State.reset.withI 0xFFF) 0x1000 = .error (.addressOutOfRange 0x1000)) ∧
    (stored 0xE9F = true ∧ memWrite (State.reset.withI 0xE9F) 0xEA0 7 = .error (.reservedRegionAccess 0xEA0)) ∧
    (stored 0xFFF = true ∧ memWrite (State.reset.withI 0xFFF) 0x1000 7 = .error (.addressOutOfRange 0x1000)) := by and_intros <;> first | decide | rfl

/-- A sprite of one row that meets a lit pixel, and one that meets none. -/
theorem witness_DrawFlipsTheSpritePixels :
    ([0x80] : List Byte).length = (1 : Fin 16).val ∧
    memRead (mem 0x300 [0x80] (State.reset.withI 0x300)) (0x300 + 0) = .ok 0x80 ∧
    ((mem 0xF00 [0x80] (mem 0x300 [0x80] (State.reset.withI 0x300))).pixel 0 0 = true ∧ spritePixel [0x80] 0 0 0 0 = true) ∧
    State.reset.pixel 0 0 = false := by and_intros <;> rfl

theorem witness_DrawingTwiceErases :
    ([0x80, 0x00] : List Byte).length ≤ 15 ∧ (∀ k, k < 256 → State.reset.mem.fbGet k = 0) ∧
    (∃ u ∈ ([0x80, 0x00] : List Byte), u ≠ 0) ∧ (∀ u ∈ ([0x00] : List Byte), u = 0) :=
  ⟨by decide, fun _ _ => rfl, ⟨0x80, by decide, by decide⟩, by decide⟩

theorem witness_KeySkipsReadThePressedState :
    ((regs [(2, 15)]).reg 2).toNat = (15 : KeyId).val ∧ 15 < ((regs [(2, 16)]).reg 2).toNat := by decide

theorem witness_KeyWaitConsumesTheLatch :
    State.reset.latch = none ∧ (State.reset.withLatch (some 15)).latch = some 15 := by decide

theorem witness_TickCountsDown :
    State.reset.status = .running ∧ (State.reset.withStatus (.faulted someFault)).status = .faulted someFault := by decide

theorem witness_KeyEventsPressAndLatch :
    State.reset.status = .running ∧ 15 < 16 ∧ (State.reset.withLatch (some 7)).latch = some 7 ∧
    (State.reset.withLatch (some 7)).latch ≠ some 6 ∧ (6 : KeyId) ≠ 7 := by decide

/-- The last byte that fits, and the first that does not, at each end. -/
theorem witness_LoadCopiesAllOrNothing :
    State.reset.status = .running ∧ (0x200 ≤ 0xE9F ∧ 0xE9F + ([1] : List Byte).length ≤ 0xEA0) ∧ 0x1FF < 0x200 ∧
    0xEA0 < 0xE9F + ([1, 2] : List Byte).length := by decide

theorem witness_DisplayAndPoll : State.reset.status = .running := by decide

end Sys2Proof.Tests
end

section
/-! SUPPORT. The opcode map (30_encoding.md R46): a row fixes the major opcode of a word and some number of its low
bits, so a word fits it exactly when it has those two fields of the row's match, and `decodeWord` branches on the same
fields. -/

namespace Sys2Proof

/-! ### The 35 rows -/

/-- One instruction of each row of the opcode map. -/
def rowRepresentatives : List Instr :=
  [.clearScreen, .ret, .callRCA 0, .jump 0, .call 0, .skipIfEqConst 0 0, .skipIfNotEqConst 0 0, .skipIfEqReg 0 0,
   .setConst 0 0, .addConst 0 0, .setReg 0 0, .or 0 0, .and 0 0, .xor 0 0, .addReg 0 0, .sub 0 0, .shr 0 0,
   .subRev 0 0, .shl 0 0, .skipIfNotEqReg 0 0, .setAddr 0, .jumpWithOffset 0, .getRandom 0 0, .draw 0 0 0,
   .skipIfKeyPressed 0, .skipIfKeyNotPressed 0, .getDelay 0, .keyWait 0, .setDelay 0, .setSound 0, .addAddr 0,
   .loadGlyph 0, .storeBcd 0, .storeBytes 0, .loadBytes 0]

/-- The opcode map as a list of rows. -/
def opcodeMap : List OpRow := rowRepresentatives.map Instr.row

theorem opcodeMap_nodup : opcodeMap.Nodup := by decide

theorem opcodeMap_length : opcodeMap.length = 35 := rfl

theorem row_mem_opcodeMap (i : Instr) : i.row ∈ opcodeMap := by
  cases i <;> simp only [Instr.row] <;> decide

theorem mem_opcodeMap_iff (r : OpRow) : r ∈ opcodeMap ↔ ∃ i : Instr, i.row = r := by
  constructor
  · intro h
    obtain ⟨i, -, hi⟩ := List.mem_map.1 h
    exact ⟨i, hi⟩
  · rintro ⟨i, rfl⟩
    exact row_mem_opcodeMap i

/-! ### The fields that select a row -/

/-- How many low bits of a word the row fixes, beside the major opcode: the ones of its mask below bit 12. -/
def OpRow.selectorBits (r : OpRow) : Nat := (r.mask.toNat % 0x1000 + 1).log2

/-- The word has the major opcode and the low bits that the row fixes. -/
def HasSelector (w : Word) (r : OpRow) : Prop :=
  fieldO w = fieldO r.pattern ∧ field w 0 r.selectorBits = field r.pattern 0 r.selectorBits

theorem field_width_zero (w : Word) (lo : Nat) : field w lo 0 = 0 := Nat.mod_one _

/-- Every mask of the map is the major opcode and a run of low bits, and no match has a bit outside its mask. -/
theorem opcodeMap_masks : ∀ r ∈ opcodeMap,
    r.mask = BitVec.ofNat 16 (0xF000 + (2 ^ r.selectorBits - 1)) ∧ r.selectorBits ≤ 12 ∧
      r.pattern &&& r.mask = r.pattern := by decide

theorem and_mask_toNat {r : OpRow} (hr : r ∈ opcodeMap) (w : Word) :
    (w &&& r.mask).toNat = fieldO w * 0x1000 + field w 0 r.selectorBits := by
  obtain ⟨hmask, hk, -⟩ := opcodeMap_masks r hr
  rw [hmask]
  exact toNat_and_low w _ hk _ rfl

theorem fits_iff_hasSelector {r : OpRow} (hr : r ∈ opcodeMap) (w : Word) :
    w &&& r.mask = r.pattern ↔ HasSelector w r := by
  obtain ⟨-, hk, hp⟩ := opcodeMap_masks r hr
  have hle : 2 ^ r.selectorBits ≤ 2 ^ 12 := Nat.pow_le_pow_right (by decide) hk
  have hw := field_lt w 0 r.selectorBits
  have hpl := field_lt r.pattern 0 r.selectorBits
  have hpn := and_mask_toNat hr r.pattern
  rw [hp] at hpn
  rw [← BitVec.toNat_inj, and_mask_toNat hr, hpn, HasSelector]
  omega

/-! ### What decodes has the fields of its row -/

theorem hasSelector_of_decode0 {w : Word} {i : Instr} (ho : fieldO w = 0x0) (h : decode0 w = .ok i) :
    HasSelector w i.row := by
  unfold decode0 at h
  split at h
  case isTrue hw => cases h; subst hw; exact ⟨rfl, rfl⟩
  case isFalse =>
    split at h
    case isTrue hw => cases h; subst hw; exact ⟨rfl, rfl⟩
    case isFalse => cases h; simp only [Instr.row]; exact ⟨ho, field_width_zero _ _⟩

theorem hasSelector_of_decode8 {w : Word} {i : Instr} (ho : fieldO w = 0x8) (h : decode8 w = .ok i) :
    HasSelector w i.row := by
  unfold decode8 at h
  split at h <;> cases h
  all_goals
    simp only [Instr.row]
    exact ⟨ho, ‹_›⟩

theorem hasSelector_of_decodeE {w : Word} {i : Instr} (ho : fieldO w = 0xE) (h : decodeE w = .ok i) :
    HasSelector w i.row := by
  unfold decodeE at h
  split at h <;> cases h
  all_goals
    simp only [Instr.row]
    exact ⟨ho, ‹_›⟩

theorem hasSelector_of_decodeF {w : Word} {i : Instr} (ho : fieldO w = 0xF) (h : decodeF w = .ok i) :
    HasSelector w i.row := by
  unfold decodeF at h
  split at h <;> cases h
  all_goals
    simp only [Instr.row]
    exact ⟨ho, ‹_›⟩

theorem hasSelector_of_decodeWord {w : Word} {i : Instr} (h : decodeWord w = .ok i) : HasSelector w i.row := by
  unfold decodeWord at h
  split at h
  case h_1 ho => exact hasSelector_of_decode0 ho h
  case h_6 ho | h_10 ho =>
    split at h
    case isTrue hn => cases h; simp only [Instr.row]; exact ⟨ho, hn⟩
    case isFalse => cases h
  case h_9 ho => exact hasSelector_of_decode8 ho h
  case h_15 ho => exact hasSelector_of_decodeE ho h
  case h_16 ho => exact hasSelector_of_decodeF ho h
  case h_17 => cases h
  all_goals
    cases h
    simp only [Instr.row]
    exact ⟨‹_›, field_width_zero _ _⟩

/-- No word of the rows `00E0` and `00EE` decodes to `CallRCA`. -/
theorem ne_of_decodes_to_callRCA_row {w : Word} {i : Instr} (h : decodeWord w = .ok i)
    (hrow : i.row = ⟨0x0000, 0xF000⟩) : w ≠ 0x00E0 ∧ w ≠ 0x00EE := by
  constructor
  all_goals
    rintro rfl
    cases h
    exact absurd hrow (by decide)

/-! ### A word with the fields of a row decodes to that row -/

/-- A word whose row fixes all 16 bits is the row's match. -/
theorem eq_of_all_fields {w p : Word} (ho : fieldO w = fieldO p) (hn : field w 0 12 = field p 0 12) : w = p := by
  apply BitVec.eq_of_toNat_eq
  rw [toNat_eq_fields w, toNat_eq_fields p, hn]
  exact congrArg (· * 0x1000 + field p 0 12) ho

theorem decodes_to_row_of_hasSelector {w : Word} {i : Instr} (h : HasSelector w i.row)
    (hrca : i.row = ⟨0x0000, 0xF000⟩ → w ≠ 0x00E0 ∧ w ≠ 0x00EE) : ∃ j, decodeWord w = .ok j ∧ j.row = i.row := by
  cases i with (simp only [Instr.row] at h ⊢; obtain ⟨ho, hn⟩ := h)
  | clearScreen | ret =>
    obtain rfl := eq_of_all_fields ho hn
    exact ⟨_, rfl, rfl⟩
  | callRCA nnn =>
    obtain ⟨hE0, hEE⟩ := hrca rfl
    exact ⟨_, by unfold decodeWord decode0; rw [ho, if_neg hE0, if_neg hEE]; rfl, rfl⟩
  | jump _ | call _ | setAddr _ | jumpWithOffset _ | skipIfEqConst _ _ | skipIfNotEqConst _ _ | setConst _ _
  | addConst _ _ | getRandom _ _ | draw _ _ _ =>
    exact ⟨_, by unfold decodeWord; rw [ho]; rfl, rfl⟩
  | skipIfEqReg _ _ | skipIfNotEqReg _ _ =>
    exact ⟨_, by unfold decodeWord; rw [ho]; exact if_pos hn, rfl⟩
  | setReg _ _ | or _ _ | and _ _ | xor _ _ | addReg _ _ | sub _ _ | shr _ _ | subRev _ _ | shl _ _ =>
    replace hn : field w 0 4 = _ := hn
    exact ⟨_, by unfold decodeWord decode8; rw [ho, hn]; rfl, rfl⟩
  | skipIfKeyPressed _ | skipIfKeyNotPressed _ =>
    replace hn : field w 0 8 = _ := hn
    exact ⟨_, by unfold decodeWord decodeE; rw [ho, hn]; rfl, rfl⟩
  | getDelay _ | keyWait _ | setDelay _ | setSound _ | addAddr _ | loadGlyph _ | storeBcd _ | storeBytes _
  | loadBytes _ =>
    replace hn : field w 0 8 = _ := hn
    exact ⟨_, by unfold decodeWord decodeF; rw [ho, hn]; rfl, rfl⟩

/-- Settles O4: `opcodeMap` lists the rows; a mask compares the row's major opcode and low bits, and these are the
fields the decoder branches on. -/
theorem decodeFollowsOpcodeMap : Obligations.DecodeFollowsOpcodeMap := by
  refine ⟨⟨opcodeMap, opcodeMap_nodup, opcodeMap_length, mem_opcodeMap_iff⟩, fun w i => ?_⟩
  constructor
  · rintro ⟨j, hj, hrow⟩
    rw [← hrow]
    exact ⟨(fits_iff_hasSelector (row_mem_opcodeMap j) w).2 (hasSelector_of_decodeWord hj), ne_of_decodes_to_callRCA_row hj⟩
  · rintro ⟨hfit, hrca⟩
    exact decodes_to_row_of_hasSelector ((fits_iff_hasSelector (row_mem_opcodeMap i) w).1 hfit) hrca

end Sys2Proof
end

section
/-! SUPPORT. The unconditional transfers of control (40_control.md R53, R55, R56, R61): what each of them answers,
the value of its target, and the frame of one that also moves the call stack. -/

namespace Sys2Proof.Machine

/-! ### What each instruction answers -/

theorem exec_ret_of_stack_eq_cons {s : State} {a : Word} {rest : List Word} (h : s.stack = a :: rest) :
    exec .ret s = .next ((s.withStack rest).withPc a) := by
  change execReturn s = _
  rw [execReturn, h]

theorem exec_ret_of_stack_eq_nil {s : State} (h : s.stack = []) :
    exec .ret s = .fault (.stackUnderflow s.here (encode .ret)) := by
  change execReturn s = _
  rw [execReturn, h]

theorem exec_jump (nnn : Addr12) (s : State) : exec (.jump nnn) s = .next (s.withPc (addrOperand nnn)) := rfl

theorem exec_call_of_depth_lt (nnn : Addr12) {s : State} (h : s.depth < 16) :
    exec (.call nnn) s = .next ((s.push s.pc).withPc (addrOperand nnn)) :=
  if_pos h

theorem exec_call_of_depth_ge (nnn : Addr12) {s : State} (h : 16 ≤ s.depth) :
    exec (.call nnn) s = .fault (.stackOverflow s.here (encode (.call nnn))) :=
  if_neg (Nat.not_lt.2 h)

theorem exec_jumpWithOffset (nnn : Addr12) (s : State) :
    exec (.jumpWithOffset nnn) s = .next (s.withPc (addrOperand nnn + (s.reg 0).setWidth 16)) := rfl

/-! ### The value of a target -/

@[simp] theorem addrOperand_toNat (nnn : Addr12) : (addrOperand nnn).toNat = nnn.toNat :=
  BitVec.toNat_setWidth_of_le (by decide)

/-- A 12-bit base and a byte sum to at most `0x10FE`, so the 16-bit addition does not wrap (40_control.md R61). -/
theorem addrOperand_add_byte_toNat (nnn : Addr12) (b : Byte) :
    (addrOperand nnn + b.setWidth 16).toNat = nnn.toNat + b.toNat := by
  have hb : (b.setWidth 16).toNat = b.toNat := BitVec.toNat_setWidth_of_le (by decide)
  have hnnn := nnn.isLt
  have hlt := b.isLt
  rw [BitVec.toNat_add, addrOperand_toNat, hb]
  omega

/-! ### The frame of a call or a return -/

theorem Frame.withStack_withPc (s : State) (l : List Word) (w : Word) :
    Frame s ((s.withStack l).withPc w) [] [.pc, .stack] :=
  ((Frame.withStack s l).mono (List.nil_subset _) (by simp)).trans
    ((Frame.withPc _ w).mono (List.nil_subset _) (by simp))

/-! ### The obligations -/

/-- Settles O29, by the two forms of the stack. -/
theorem returnPops : Obligations.ReturnPops := by
  constructor
  · intro s a rest h
    exact ⟨_, exec_ret_of_stack_eq_cons h, rfl, rfl, Frame.withStack_withPc s rest a, bytesSame_of_mem_eq rfl⟩
  · intro s h
    exact ⟨_, exec_ret_of_stack_eq_nil h, rfl⟩

/-- Settles O31: the target is zero-extended, and only `pc` is written. -/
theorem jumpSetsPc : Obligations.JumpSetsPc := fun nnn s =>
  ⟨_, exec_jump nnn s, addrOperand_toNat nnn, Frame.withPc s _, bytesSame_of_mem_eq rfl⟩

/-- Settles O32, by whether the stack has room. -/
theorem callPushesReturnAddress : Obligations.CallPushesReturnAddress := by
  intro nnn s
  constructor
  · intro hroom
    exact ⟨_, exec_call_of_depth_lt nnn hroom, addrOperand_toNat nnn, rfl, Frame.withStack_withPc s _ _,
      bytesSame_of_mem_eq rfl⟩
  · intro hfull
    exact ⟨_, exec_call_of_depth_ge nnn (Nat.le_of_eq hfull.symm), rfl⟩

/-- Settles O36: the sum fits 16 bits, so `pc` holds it whole, and only `pc` is written. -/
theorem jumpWithOffsetAddsRegisterZero : Obligations.JumpWithOffsetAddsRegisterZero := fun nnn s =>
  ⟨_, exec_jumpWithOffset nnn s, addrOperand_add_byte_toNat nnn (s.reg 0), Frame.withPc s _, bytesSame_of_mem_eq rfl⟩

end Sys2Proof.Machine
end

section
/-! SUPPORT. The instructions that write one register and no flag (41_alu.md R66 to R71): what each of them answers,
and the value it writes. -/

namespace Sys2Proof.Machine

/-! ### What each instruction answers -/

theorem exec_setConst (x : RegId) (nn : Byte) (s : State) : exec (.setConst x nn) s = .next (s.setReg x nn) := rfl

theorem exec_addConst (x : RegId) (nn : Byte) (s : State) :
    exec (.addConst x nn) s = .next (s.setReg x (addResult (s.reg x) nn)) := rfl

theorem exec_setReg (x y : RegId) (s : State) : exec (.setReg x y) s = .next (s.setReg x (s.reg y)) := rfl

theorem exec_or (x y : RegId) (s : State) : exec (.or x y) s = .next (s.setReg x (s.reg x ||| s.reg y)) := rfl

theorem exec_and (x y : RegId) (s : State) : exec (.and x y) s = .next (s.setReg x (s.reg x &&& s.reg y)) := rfl

theorem exec_xor (x y : RegId) (s : State) : exec (.xor x y) s = .next (s.setReg x (s.reg x ^^^ s.reg y)) := rfl

/-! ### The value of a sum -/

@[simp] theorem addResult_toNat (a b : Byte) : (addResult a b).toNat = (a.toNat + b.toNat) % 256 :=
  BitVec.toNat_ofNat _ 8

/-! ### The obligations -/

/-- Settles O38: each of the three answers one register write, and the sum is taken modulo 256. -/
theorem setAndAddConstant : Obligations.SetAndAddConstant := by
  intro x y nn s
  refine ⟨?_, ?_, ?_⟩
  · exact ⟨_, exec_setConst x nn s, State.reg_setReg_same s x nn, Frame.setReg s x _, bytesSame_of_mem_eq rfl⟩
  · exact ⟨_, exec_addConst x nn s, by rw [State.reg_setReg_same, addResult_toNat], Frame.setReg s x _,
      bytesSame_of_mem_eq rfl⟩
  · exact ⟨_, exec_setReg x y s, State.reg_setReg_same s x _, Frame.setReg s x _, bytesSame_of_mem_eq rfl⟩

/-- Settles O39: each of the three answers one register write, of a byte made bit by bit. -/
theorem logicWorksBitByBit : Obligations.LogicWorksBitByBit := by
  intro x y s
  refine ⟨?_, ?_, ?_⟩
  · exact ⟨_, exec_or x y s, fun k => by rw [State.reg_setReg_same, BitVec.getLsbD_or], Frame.setReg s x _,
      bytesSame_of_mem_eq rfl⟩
  · exact ⟨_, exec_and x y s, fun k => by rw [State.reg_setReg_same, BitVec.getLsbD_and], Frame.setReg s x _,
      bytesSame_of_mem_eq rfl⟩
  · exact ⟨_, exec_xor x y s, fun k => by rw [State.reg_setReg_same, BitVec.getLsbD_xor], Frame.setReg s x _,
      bytesSame_of_mem_eq rfl⟩

end Sys2Proof.Machine
end

section
/-! SUPPORT. The instructions that load `I` or add to it (42_address.md R78, R79): what each of them answers, the value
and the flag of the sum, and the frame of a write to a register and to `I`. -/

namespace Sys2Proof.Machine

/-! ### What each instruction answers -/

theorem exec_setAddr (nnn : Addr12) (s : State) : exec (.setAddr nnn) s = .next (s.withI (addrOperand nnn)) := rfl

theorem exec_addAddr (x : RegId) (s : State) :
    exec (.addAddr x) s =
      .next ((s.setReg vf (addrFlag s.i (s.reg x))).withI (addrResult s.i (s.reg x))) := rfl

/-! ### The value and the flag of the sum -/

/-- A sum modulo `0x1000` fits the 16 bits of `I`, so storing it loses nothing (42_address.md R79). -/
@[simp] theorem addrResult_toNat (i : Word) (b : Byte) :
    (addrResult i b).toNat = (i.toNat + b.toNat) % 0x1000 := by
  have hfits : (i.toNat + b.toNat) % 0x1000 < 2 ^ 16 := by omega
  exact (BitVec.toNat_ofNat _ 16).trans (Nat.mod_eq_of_lt hfits)

theorem flag_decide (p : Prop) [Decidable p] : flag (decide p) = if p then 1 else 0 := by
  by_cases h : p <;> simp [flag, h]

theorem addrFlag_eq (i : Word) (b : Byte) : addrFlag i b = if i.toNat + b.toNat > 0xFFF then 1 else 0 :=
  flag_decide _

/-! ### The frame of a write to a register and to `I` -/

theorem Frame.setReg_withI (s : State) (x : RegId) (b : Byte) (w : Word) :
    Frame s ((s.setReg x b).withI w) [x] [.i] :=
  ((Frame.setReg s x b).mono (List.Subset.refl _) (List.nil_subset _)).trans
    ((Frame.withI _ w).mono (List.nil_subset _) (List.Subset.refl _))

/-! ### The obligation -/

/-- Settles O44: SetAddr writes `I` alone; AddAddr writes VF and `I`, both from the state before, so `x = 15` needs
no case of its own. -/
theorem addressRegisterLoadsAndAdds : Obligations.AddressRegisterLoadsAndAdds := by
  constructor
  · intro nnn s
    exact ⟨_, exec_setAddr nnn s, addrOperand_toNat nnn, Frame.withI s _, bytesSame_of_mem_eq rfl⟩
  · intro x s
    have hflag : (s.setReg vf (addrFlag s.i (s.reg x))).reg vf = addrFlag s.i (s.reg x) := State.reg_setReg_same s vf _
    exact ⟨_, exec_addAddr x s, addrResult_toNat s.i (s.reg x), hflag.trans (addrFlag_eq s.i (s.reg x)),
      Frame.setReg_withI s vf _ _, bytesSame_of_mem_eq rfl⟩

end Sys2Proof.Machine
end

section
/-! SUPPORT. The instructions that read or load a timer (44_input_timer.md R93, R95, R96): what each of them answers. -/

namespace Sys2Proof.Machine

/-! ### What each instruction answers -/

theorem exec_getDelay (x : RegId) (s : State) : exec (.getDelay x) s = .next (s.setReg x s.dt) := rfl

theorem exec_setDelay (x : RegId) (s : State) : exec (.setDelay x) s = .next (s.withDt (s.reg x)) := rfl

theorem exec_setSound (x : RegId) (s : State) : exec (.setSound x) s = .next (s.withSt (s.reg x)) := rfl

/-! ### The obligation -/

/-- Settles O55: each of the three answers one update, of one register or of one timer, whose frame is known. -/
theorem timerInstructionsMoveOneByte : Obligations.TimerInstructionsMoveOneByte := by
  intro x s
  refine ⟨?getDelay, ?setDelay, ?setSound⟩
  case getDelay =>
    exact ⟨_, exec_getDelay x s, State.reg_setReg_same s x _, Frame.setReg s x _, bytesSame_of_mem_eq rfl⟩
  case setDelay => exact ⟨_, exec_setDelay x s, State.withDt_dt s _, Frame.withDt s _, bytesSame_of_mem_eq rfl⟩
  case setSound => exact ⟨_, exec_setSound x s, State.withSt_st s _, Frame.withSt s _, bytesSame_of_mem_eq rfl⟩

end Sys2Proof.Machine
end

section
/-! SUPPORT. Decoding against encoding (30_encoding.md R41 to R48): the fields of an encoded word, what a word that
decodes was encoded from, and which words do not decode. -/

namespace Sys2Proof

open Sys2Proof.Machine

/-! ### The fields of an encoded word -/

@[simp] theorem fieldO_packA (o : Nat) (nnn : Addr12) (ho : o < 16) : fieldO (packA o nnn) = o :=
  (fields_packA o nnn ho).1

@[simp] theorem fieldNNN_packA (o : Nat) (nnn : Addr12) (ho : o < 16) : fieldNNN (packA o nnn) = nnn :=
  (fields_packA o nnn ho).2

@[simp] theorem fieldO_packXK (o : Nat) (x : RegId) (nn : Byte) (ho : o < 16) : fieldO (packXK o x nn) = o :=
  (fields_packXK o x nn ho).1

@[simp] theorem fieldX_packXK (o : Nat) (x : RegId) (nn : Byte) (ho : o < 16) : fieldX (packXK o x nn) = x :=
  (fields_packXK o x nn ho).2.1

@[simp] theorem fieldNN_packXK (o : Nat) (x : RegId) (nn : Byte) (ho : o < 16) : fieldNN (packXK o x nn) = nn :=
  (fields_packXK o x nn ho).2.2.1

@[simp] theorem lowByte_packXK (o : Nat) (x : RegId) (nn : Byte) (ho : o < 16) :
    field (packXK o x nn) 0 8 = nn.toNat :=
  (fields_packXK o x nn ho).2.2.2

@[simp] theorem fieldO_packXYN (o : Nat) (x y : RegId) (n : Nat) (ho : o < 16) (hn : n < 16) :
    fieldO (packXYN o x.val y.val n) = o :=
  (fields_packXYN o x y n ho hn).1

@[simp] theorem fieldX_packXYN (o : Nat) (x y : RegId) (n : Nat) (ho : o < 16) (hn : n < 16) :
    fieldX (packXYN o x.val y.val n) = x :=
  (fields_packXYN o x y n ho hn).2.1

@[simp] theorem fieldY_packXYN (o : Nat) (x y : RegId) (n : Nat) (ho : o < 16) (hn : n < 16) :
    fieldY (packXYN o x.val y.val n) = y :=
  (fields_packXYN o x y n ho hn).2.2.1

@[simp] theorem lowNibble_packXYN (o : Nat) (x y : RegId) (n : Nat) (ho : o < 16) (hn : n < 16) :
    field (packXYN o x.val y.val n) 0 4 = n :=
  (fields_packXYN o x y n ho hn).2.2.2

@[simp] theorem fieldN_packXYN (o : Nat) (x y : RegId) (n : Fin 16) (ho : o < 16) :
    fieldN (packXYN o x.val y.val n.val) = n :=
  Fin.ext (lowNibble_packXYN o x y n.val ho n.isLt)

/-! ### The words of the 0 family -/

theorem packA_eq_packA_iff (o : Nat) (a b : Addr12) (ho : o < 16) : packA o a = packA o b ↔ a = b := by
  constructor
  · intro h
    rw [← fieldNNN_packA o a ho, h, fieldNNN_packA o b ho]
  · rintro rfl
    rfl

/-- The two terms `wellFormed` refuses are the two whose words are other operations (30_encoding.md R48). -/
theorem wellFormed_callRCA_iff (nnn : Addr12) :
    (Instr.callRCA nnn).WellFormed ↔ packA 0x0 nnn ≠ 0x00E0 ∧ packA 0x0 nnn ≠ 0x00EE := by
  have hE0 : (0x00E0 : Word) = packA 0x0 0x0E0 := rfl
  have hEE : (0x00EE : Word) = packA 0x0 0x0EE := rfl
  rw [hE0, hEE, Ne, Ne, packA_eq_packA_iff _ _ _ (by decide), packA_eq_packA_iff _ _ _ (by decide)]
  simp [Instr.WellFormed, Instr.wellFormed]

/-! ### The two round trips -/

theorem decodeWord_encode (i : Instr) (h : i.WellFormed) : decodeWord (encode i) = .ok i := by
  cases i with
  | clearScreen | ret => rfl
  | callRCA nnn =>
    obtain ⟨hE0, hEE⟩ := (wellFormed_callRCA_iff nnn).1 h
    rw [encode, decodeWord, fieldO_packA _ _ (by decide)]
    exact (if_neg hE0).trans ((if_neg hEE).trans (by simp))
  | jump _ | call _ | setAddr _ | jumpWithOffset _ => simp [encode, decodeWord]
  | skipIfEqConst _ _ | skipIfNotEqConst _ _ | setConst _ _ | addConst _ _ | getRandom _ _ =>
    simp [encode, decodeWord]
  | skipIfEqReg _ _ | skipIfNotEqReg _ _ | draw _ _ _ => simp [encode, decodeWord]
  | setReg _ _ | or _ _ | and _ _ | xor _ _ | addReg _ _ | sub _ _ | shr _ _ | subRev _ _ | shl _ _ =>
    simp [encode, decodeWord, decode8]
  | skipIfKeyPressed _ | skipIfKeyNotPressed _ => simp [encode, decodeWord, decodeE]
  | getDelay _ | keyWait _ | setDelay _ | setSound _ | addAddr _ | loadGlyph _ | storeBcd _ | storeBytes _
  | loadBytes _ =>
    simp [encode, decodeWord, decodeF]

theorem encode_of_decode0 {w : Word} {i : Instr} (ho : fieldO w = 0x0) (h : decode0 w = .ok i) :
    encode i = w ∧ i.WellFormed := by
  have hw : packA 0x0 (fieldNNN w) = w := packA_of_fields w ho
  unfold decode0 at h
  split at h
  case isTrue hE0 => cases h; exact ⟨hE0.symm, rfl⟩
  case isFalse hE0 =>
    split at h
    case isTrue hEE => cases h; exact ⟨hEE.symm, rfl⟩
    case isFalse hEE => cases h; exact ⟨hw, (wellFormed_callRCA_iff _).2 (by rw [hw]; exact ⟨hE0, hEE⟩)⟩

theorem encode_of_decode8 {w : Word} {i : Instr} (ho : fieldO w = 0x8) (h : decode8 w = .ok i) :
    encode i = w ∧ i.WellFormed := by
  unfold decode8 at h
  split at h <;> cases h
  all_goals exact ⟨packXYN_of_fields w ho ‹_›, rfl⟩

theorem encode_of_decodeE {w : Word} {i : Instr} (ho : fieldO w = 0xE) (h : decodeE w = .ok i) :
    encode i = w ∧ i.WellFormed := by
  unfold decodeE at h
  split at h <;> cases h
  all_goals exact ⟨packXK_of_fields w ho ‹_›, rfl⟩

theorem encode_of_decodeF {w : Word} {i : Instr} (ho : fieldO w = 0xF) (h : decodeF w = .ok i) :
    encode i = w ∧ i.WellFormed := by
  unfold decodeF at h
  split at h <;> cases h
  all_goals exact ⟨packXK_of_fields w ho ‹_›, rfl⟩

theorem encode_of_decodeWord {w : Word} {i : Instr} (h : decodeWord w = .ok i) : encode i = w ∧ i.WellFormed := by
  unfold decodeWord at h
  split at h
  case h_1 ho => exact encode_of_decode0 ho h
  case h_2 ho | h_3 ho | h_11 ho | h_12 ho => cases h; exact ⟨packA_of_fields w ho, rfl⟩
  case h_4 ho | h_5 ho | h_7 ho | h_8 ho | h_13 ho =>
    cases h; exact ⟨packXK_of_fields w ho (fieldNN_toNat w).symm, rfl⟩
  case h_6 ho | h_10 ho =>
    split at h
    case isTrue hn => cases h; exact ⟨packXYN_of_fields w ho hn, rfl⟩
    case isFalse => cases h
  case h_9 ho => exact encode_of_decode8 ho h
  case h_14 ho => cases h; exact ⟨packXYN_of_fields w ho (fieldN_val w).symm, rfl⟩
  case h_15 ho => exact encode_of_decodeE ho h
  case h_16 ho => exact encode_of_decodeF ho h
  case h_17 => cases h

/-- Settles O2, by the fields of each format, which are the ones the decoder branches on. -/
theorem decodeOfEncodeIsIdentity : Obligations.DecodeOfEncodeIsIdentity := decodeWord_encode

/-- Settles O3, by the decoder's branches: each leaves only operand bits free, and these are the fields it reads. -/
theorem encodeOfDecodeIsIdentity : Obligations.EncodeOfDecodeIsIdentity := fun _ _ h => encode_of_decodeWord h

/-! ### Operands -/

theorem fieldNN_eq_extractLsb' (w : Word) : fieldNN w = w.extractLsb' 0 8 :=
  BitVec.eq_of_toNat_eq ((fieldNN_toNat w).trans (toNat_extractLsb'_eq_field w 0 8).symm)

theorem fieldNNN_eq_extractLsb' (w : Word) : fieldNNN w = w.extractLsb' 0 12 :=
  BitVec.eq_of_toNat_eq ((fieldNNN_toNat w).trans (toNat_extractLsb'_eq_field w 0 12).symm)

/-- The operands of an instruction are the fields of its word. -/
theorem operandsAre_encode (i : Instr) : OperandsAre (encode i) i := by
  cases i with
    simp only [OperandsAre, encode, toNat_extractLsb'_eq_field, ← fieldX_val, ← fieldY_val, ← fieldN_val,
      ← fieldNN_eq_extractLsb', ← fieldNNN_eq_extractLsb']
  | callRCA _ | jump _ | call _ | setAddr _ | jumpWithOffset _ => simp
  | skipIfEqConst _ _ | skipIfNotEqConst _ _ | setConst _ _ | addConst _ _ | getRandom _ _ => simp
  | skipIfEqReg _ _ | skipIfNotEqReg _ _ | setReg _ _ | or _ _ | and _ _ | xor _ _ | addReg _ _ | sub _ _ | shr _ _
  | subRev _ _ | shl _ _ | draw _ _ _ => simp
  | skipIfKeyPressed _ | skipIfKeyNotPressed _ | getDelay _ | keyWait _ | setDelay _ | setSound _ | addAddr _
  | loadGlyph _ | storeBcd _ | storeBytes _ | loadBytes _ => simp

/-- Settles O5: a word that decodes to `i` is the word of `i`, whose fields are the operands it was packed from. -/
theorem decodedOperandsAreFields : Obligations.DecodedOperandsAreFields := by
  intro w i h
  rw [← (encode_of_decodeWord h).1]
  exact operandsAre_encode i

/-! ### Illegal words -/

theorem toNat_div_eq_fieldO (w : Word) : w.toNat / 0x1000 = fieldO w := by
  have := w.isLt
  simp only [fieldO, field]
  omega

theorem toNat_mod_eq_lowNibble (w : Word) : w.toNat % 0x10 = field w 0 4 := by simp [field]

theorem toNat_mod_eq_lowByte (w : Word) : w.toNat % 0x100 = field w 0 8 := by simp [field]

theorem decode0_ne_error (w : Word) (e : DecodeReject) : decode0 w ≠ .error e := by
  unfold decode0
  split
  · simp
  · split <;> simp

theorem decode8_eq_error_iff (w : Word) :
    decode8 w = .error (.decodeError w) ↔
      [0x8, 0x9, 0xA, 0xB, 0xC, 0xD, 0xF].contains (field w 0 4) = true := by
  have hlt : field w 0 4 < 16 := field_lt w 0 4
  unfold decode8
  split
  case h_10 =>
    simp only [List.contains_eq_mem, List.mem_cons, List.not_mem_nil, or_false, decide_eq_true_eq, true_iff]
    grind
  all_goals simp [*]

theorem decodeE_eq_error_iff (w : Word) :
    decodeE w = .error (.decodeError w) ↔ (!([0x9E, 0xA1].contains (field w 0 8))) = true := by
  unfold decodeE
  split
  case h_3 =>
    simp only [List.contains_eq_mem, List.mem_cons, List.not_mem_nil, or_false, Bool.not_eq_true',
      decide_eq_false_iff_not, true_iff]
    grind
  all_goals simp [*]

theorem decodeF_eq_error_iff (w : Word) :
    decodeF w = .error (.decodeError w) ↔
      (!([0x07, 0x0A, 0x15, 0x18, 0x1E, 0x29, 0x33, 0x55, 0x65].contains (field w 0 8))) = true := by
  unfold decodeF
  split
  case h_10 =>
    simp only [List.contains_eq_mem, List.mem_cons, List.not_mem_nil, or_false, Bool.not_eq_true',
      decide_eq_false_iff_not, true_iff]
    grind
  all_goals simp [*]

/-- The decoder rejects exactly the words of 30_encoding.md R47, which is told by the fields it branches on. -/
theorem decodeWord_eq_error_iff (w : Word) : decodeWord w = .error (.decodeError w) ↔ illegal w = true := by
  have hlt : fieldO w < 16 := field_lt w 12 4
  unfold decodeWord illegal
  rw [toNat_div_eq_fieldO, toNat_mod_eq_lowNibble, toNat_mod_eq_lowByte]
  split
  case h_1 ho => simp [ho, decode0_ne_error]
  case h_6 ho | h_10 ho => simp only [ho]; split <;> simp [*]
  case h_9 ho => simp only [ho]; exact decode8_eq_error_iff w
  case h_15 ho => simp only [ho]; exact decodeE_eq_error_iff w
  case h_16 ho => simp only [ho]; exact decodeF_eq_error_iff w
  case h_17 => grind
  all_goals simp [*]

/-- A word that does not decode is rejected as itself. -/
theorem eq_decodeError_of_decodeWord {w : Word} {e : DecodeReject} (h : decodeWord w = .error e) :
    e = .decodeError w := by
  unfold decodeWord decode0 decode8 decodeE decodeF at h
  repeat' split at h
  all_goals cases h
  all_goals rfl

theorem decodes_of_not_illegal {w : Word} (h : illegal w = false) : ∃ i, decodeWord w = .ok i := by
  cases hd : decodeWord w with
  | ok i => exact ⟨i, rfl⟩
  | error e =>
    rw [eq_decodeError_of_decodeWord hd, decodeWord_eq_error_iff, h] at hd
    cases hd

/-! ### Counting the illegal words -/

/-- A property of period `m` holds as often in `k` periods as `k` times in one. -/
theorem countP_range_mul_of_periodic (p : Nat → Bool) (m k : Nat) (hp : ∀ n, p (n + m) = p n) :
    (List.range (k * m)).countP p = k * (List.range m).countP p := by
  have hshift : ∀ j n, p (j * m + n) = p n := by
    intro j n
    induction j with
    | zero => simp
    | succ j ih => rw [← ih, ← hp (j * m + n), Nat.succ_mul, Nat.add_right_comm]
  induction k with
  | zero => simp
  | succ k ih =>
    rw [Nat.succ_mul, List.range_add, List.countP_append, ih, List.countP_map, Nat.succ_mul]
    congr 2
    exact funext (hshift k)

/-- Whether a word is illegal is told by its major opcode and its low byte. -/
theorem illegal_congr {w z : Word} (ho : w.toNat / 0x1000 = z.toNat / 0x1000)
    (hnn : w.toNat % 0x100 = z.toNat % 0x100) : illegal w = illegal z := by
  have hn : w.toNat % 0x10 = z.toNat % 0x10 := by omega
  unfold illegal
  rw [ho, hnn, hn]

/-- The illegal words of a family are those of its first 256 words, 16 times over. -/
theorem countP_illegal_family (o : Nat) :
    (List.range 0x1000).countP (fun n => illegal (BitVec.ofNat 16 (o * 0x1000 + n))) =
      16 * (List.range 0x100).countP (fun n => illegal (BitVec.ofNat 16 (o * 0x1000 + n % 0x100))) := by
  rw [← countP_range_mul_of_periodic _ 0x100 16 (fun n => by rw [Nat.add_mod_right])]
  refine List.countP_congr fun n hn => ?_
  have hlt : n < 0x1000 := List.mem_range.1 hn
  rw [illegal_congr (z := BitVec.ofNat 16 (o * 0x1000 + n % 0x100))]
  all_goals
    rw [BitVec.toNat_ofNat, BitVec.toNat_ofNat]
    omega

/-- Of the 256 low bytes, those that are illegal with each major opcode of 30_encoding.md R47. -/
theorem countP_illegal_lowBytes :
    [0x5, 0x8, 0x9, 0xE, 0xF].map (fun o =>
      (List.range 0x100).countP (fun n => illegal (BitVec.ofNat 16 (o * 0x1000 + n % 0x100)))) =
        [240, 112, 240, 254, 247] := by
  decide +kernel

/-! ### An instruction as bytes -/

theorem decodeBytes_encodeBytes_append (i : Instr) (rest : List Byte) (h : i.WellFormed) :
    decodeBytes (encodeBytes i ++ rest) = .ok (i, rest) := by
  simp [encodeBytes, decodeBytes, decodeWord_encode i h]

theorem decodeBytes_eq_truncated_iff (bytes : List Byte) :
    decodeBytes bytes = .error .truncated ↔ bytes.length < 2 := by
  match bytes with
  | [] | [_] => simp [decodeBytes]
  | hi :: lo :: rest =>
    cases hd : decodeWord (wordOfBytes hi lo) with
    | ok i => simp [decodeBytes, hd]
    | error e => simp [decodeBytes, hd, eq_decodeError_of_decodeWord hd]

/-- Settles O7: a word's two bytes make the word again, and the decoder takes no more of the list than the two. -/
theorem instructionIsTwoBytes : Obligations.InstructionIsTwoBytes :=
  ⟨decodeBytes_encodeBytes_append, fun _ => rfl, decodeBytes_eq_truncated_iff⟩

/-- Settles O1, by running the decoder on the fourteen words. -/
theorem decodeSampleWords : Obligations.DecodeSampleWords := by
  unfold Obligations.DecodeSampleWords
  and_intros <;> rfl

end Sys2Proof
end

section
/-! SUPPORT. The step (40_control.md R51): what it answers in each of its phases, and, the other way round, what a step
that answers a fault or a next state has done. -/

namespace Sys2Proof.Machine

/-! ### The phases of a step -/

theorem step_of_faulted {s : State} {r : Fault} (h : s.status = .faulted r) : step s = .refused (.terminated r) := by
  unfold step
  rw [h]

theorem step_of_fetch_error {s : State} {f : Fault} (hrun : s.status = .running) (h : fetch s = .error f) :
    step s = .fault f := by
  unfold step
  rw [hrun, h]

theorem step_of_decode_error {s : State} {w : Word} {e : DecodeReject} (hrun : s.status = .running)
    (hw : fetch s = .ok w) (h : decodeWord w = .error e) : step s = .fault (.decodeError s.pc w) := by
  unfold step
  rw [hrun, hw]
  dsimp only
  rw [h]

theorem step_of_decode {s : State} {w : Word} {i : Instr} (hrun : s.status = .running) (hw : fetch s = .ok w)
    (h : decodeWord w = .ok i) : step s = exec i s.advance := by
  unfold step
  rw [hrun, hw]
  dsimp only
  rw [h]

/-- What a step of a running block has done: its fetch faulted, or the word it fetched does not decode, or it
executed an instruction with `pc` advanced. -/
theorem step_cases {s : State} (hrun : s.status = .running) :
    (∃ f, fetch s = .error f ∧ step s = .fault f) ∨
    (∃ w, fetch s = .ok w ∧ step s = .fault (.decodeError s.pc w)) ∨
    (∃ w i, fetch s = .ok w ∧ decodeWord w = .ok i ∧ step s = exec i s.advance) := by
  cases hw : fetch s with
  | error f => exact .inl ⟨f, rfl, step_of_fetch_error hrun hw⟩
  | ok w =>
    cases hi : decodeWord w with
    | error e => exact .inr (.inl ⟨w, rfl, step_of_decode_error hrun hw hi⟩)
    | ok i => exact .inr (.inr ⟨w, i, rfl, hi, step_of_decode hrun hw hi⟩)

theorem running_of_step_eq_next {s t : State} (h : step s = .next t) : s.status = .running := by
  cases hs : s.status with
  | running => rfl
  | faulted r => rw [step_of_faulted hs] at h; cases h

/-- A step that goes on has executed the instruction it fetched. -/
theorem exec_of_step_eq_next {s t : State} (h : step s = .next t) :
    ∃ w i, fetch s = .ok w ∧ decodeWord w = .ok i ∧ exec i s.advance = .next t := by
  obtain ⟨f, -, hs⟩ | ⟨w, -, hs⟩ | ⟨w, i, hw, hi, hs⟩ := step_cases (running_of_step_eq_next h)
  · rw [hs] at h; cases h
  · rw [hs] at h; cases h
  · exact ⟨w, i, hw, hi, hs ▸ h⟩

/-! ### The fetch -/

theorem fetch_eq_error_of_high {s : State} {e : AccessFault} (h : memRead s s.pc.toNat = .error e) :
    fetch s = .error (e.toFault s.pc none) := by
  simp [fetch, memReadWord, h]

theorem fetch_eq_error_of_low {s : State} {hi : Byte} {e : AccessFault} (hhi : memRead s s.pc.toNat = .ok hi)
    (hlo : memRead s (s.pc.toNat + 1) = .error e) : fetch s = .error (e.toFault s.pc none) := by
  simp [fetch, memReadWord, hhi, hlo]

theorem fetch_eq_ok {s : State} {hi lo : Byte} (hhi : memRead s s.pc.toNat = .ok hi)
    (hlo : memRead s (s.pc.toNat + 1) = .ok lo) : fetch s = .ok (wordOfBytes hi lo) :=
  (fetch_ok_iff s _).2 ((memReadWord_ok_iff s _ _).2 ⟨hi, lo, hhi, hlo, rfl⟩)

theorem fetch_error {s : State} {f : Fault} (h : fetch s = .error f) : ∃ e : AccessFault, f = e.toFault s.pc none := by
  unfold fetch at h
  split at h <;> cases h
  exact ⟨_, rfl⟩

/-- Settles O8, phase by phase. -/
theorem stepFetchesAdvancesDecodesExecutes : Obligations.StepFetchesAdvancesDecodesExecutes := by
  refine ⟨fun s f => step_of_faulted, ?_, ?_, ?_, ?_⟩
  · intro s e hrun h
    exact step_of_fetch_error hrun (fetch_eq_error_of_high h)
  · intro s hi e hrun hhi hlo
    exact step_of_fetch_error hrun (fetch_eq_error_of_low hhi hlo)
  · intro s hi lo w hrun hhi hlo hd
    have hw : w = wordOfBytes hi lo := DecodeReject.decodeError.inj (eq_decodeError_of_decodeWord hd)
    rw [hw]
    exact step_of_decode_error hrun (fetch_eq_ok hhi hlo) hd
  · intro s hi lo i hrun hhi hlo hd
    exact step_of_decode hrun (fetch_eq_ok hhi hlo) hd

/-! ### Illegal words at the fetch -/

/-- Settles O6: the decoder's branches are the families of illegal words, a word that does not decode is a fault of the
step, and each family repeats with its low byte. -/
theorem illegalWordsAreExactlyTheListed : Obligations.IllegalWordsAreExactlyTheListed := by
  refine ⟨decodeWord_eq_error_iff, fun w => decodes_of_not_illegal, ?_, ?_, by decide, by decide⟩
  · intro s w hrun hw hill
    exact ⟨_, step_of_decode_error hrun hw ((decodeWord_eq_error_iff w).2 hill), rfl, rfl⟩
  · have hfamily := fun o => countP_illegal_family o
    have hlow := countP_illegal_lowBytes
    simp only [List.map_cons, List.map_nil, List.cons.injEq] at hlow ⊢
    obtain ⟨h5, h8, h9, hE, hF, -⟩ := hlow
    exact ⟨(hfamily 0x5).trans (by rw [h5]), (hfamily 0x8).trans (by rw [h8]), (hfamily 0x9).trans (by rw [h9]),
      (hfamily 0xE).trans (by rw [hE]), (hfamily 0xF).trans (by rw [hF]), trivial⟩

end Sys2Proof.Machine
end

section
/-! SUPPORT. The skips (40_control.md R57 to R60, R62; 44_input_timer.md R91, R92), CallRCA (40_control.md R54) and
KeyWait (44_input_timer.md R94): what each of them answers, and what every skip leaves unchanged. -/

namespace Sys2Proof.Machine

/-! ### What each instruction answers -/

theorem exec_callRCA (nnn : Addr12) (s : State) :
    exec (.callRCA nnn) s = .fault (.unsupported s.here (encode (.callRCA nnn))) := rfl

theorem exec_skipIfEqConst (x : RegId) (nn : Byte) (s : State) :
    exec (.skipIfEqConst x nn) s = .next (s.skipIf (s.reg x == nn)) := rfl

theorem exec_skipIfNotEqConst (x : RegId) (nn : Byte) (s : State) :
    exec (.skipIfNotEqConst x nn) s = .next (s.skipIf (s.reg x != nn)) := rfl

theorem exec_skipIfEqReg (x y : RegId) (s : State) :
    exec (.skipIfEqReg x y) s = .next (s.skipIf (s.reg x == s.reg y)) := rfl

theorem exec_skipIfNotEqReg (x y : RegId) (s : State) :
    exec (.skipIfNotEqReg x y) s = .next (s.skipIf (s.reg x != s.reg y)) := rfl

theorem exec_skipIfKeyPressed_of_index {x : RegId} {s : State} {k : KeyId} (h : index16 (s.reg x) = some k) :
    exec (.skipIfKeyPressed x) s = .next (s.skipIf (s.isPressed k)) := by
  change execSkipIfKeyPressed x s = _
  rw [execSkipIfKeyPressed, h]

theorem exec_skipIfKeyPressed_of_no_index {x : RegId} {s : State} (h : index16 (s.reg x) = none) :
    exec (.skipIfKeyPressed x) s = .fault (.invalidKeyIndex s.here (encode (.skipIfKeyPressed x)) (s.reg x)) := by
  change execSkipIfKeyPressed x s = _
  rw [execSkipIfKeyPressed, h]

theorem exec_skipIfKeyNotPressed_of_index {x : RegId} {s : State} {k : KeyId} (h : index16 (s.reg x) = some k) :
    exec (.skipIfKeyNotPressed x) s = .next (s.skipIf (!s.isPressed k)) := by
  change execSkipIfKeyNotPressed x s = _
  rw [execSkipIfKeyNotPressed, h]

theorem exec_skipIfKeyNotPressed_of_no_index {x : RegId} {s : State} (h : index16 (s.reg x) = none) :
    exec (.skipIfKeyNotPressed x) s =
      .fault (.invalidKeyIndex s.here (encode (.skipIfKeyNotPressed x)) (s.reg x)) := by
  change execSkipIfKeyNotPressed x s = _
  rw [execSkipIfKeyNotPressed, h]

theorem exec_keyWait_of_latch_none (x : RegId) {s : State} (h : s.latch = none) :
    exec (.keyWait x) s = .next s.rewind := by
  have hsame : s.withLatch none = s := by rw [← h]; rfl
  change execKeyWait x s = _
  rw [execKeyWait, State.getKey, h, hsame]

theorem exec_keyWait_of_latch_some (x : RegId) {s : State} {k : KeyId} (h : s.latch = some k) :
    exec (.keyWait x) s = .next ((s.withLatch none).setReg x (BitVec.ofNat 8 k.val)) := by
  change execKeyWait x s = _
  rw [execKeyWait, State.getKey, h]

/-! ### Skips -/

/-- What an instruction that answers a skip does: 2 more on `pc` when its condition holds, and nothing else
(40_control.md R62). -/
theorem skip_goes_on {i : Instr} {s : State} {c : Bool} (h : exec i s = .next (s.skipIf c)) :
    ∃ t, exec i s = .next t ∧ (t.pc = if c then s.pc + 2 else s.pc) ∧ Frame s t [] [.pc] ∧ BytesSame s t :=
  ⟨_, h, State.skipIf_pc s c, Frame.skipIf s c, bytesSame_of_mem_eq (State.skipIf_mem s c)⟩

/-- A skip whose condition decides `p`. -/
theorem skip_on_goes_on {i : Instr} {s : State} {c : Bool} {p : Prop} (h : exec i s = .next (s.skipIf c))
    (hc : c = true ↔ p) :
    ∃ t, exec i s = .next t ∧ (p → t.pc = s.pc + 2) ∧ (¬ p → t.pc = s.pc) ∧ Frame s t [] [.pc] ∧ BytesSame s t := by
  obtain ⟨t, ht, hpc, hframe, hbytes⟩ := skip_goes_on h
  exact ⟨t, ht, fun hp => by rw [hpc, if_pos (hc.2 hp)], fun hp => by rw [hpc, if_neg (mt hc.1 hp)], hframe, hbytes⟩

/-- Settles O34: both instructions are skips, on equality and on its negation. -/
theorem skipOnConstant : Obligations.SkipOnConstant := by
  intro x nn s
  constructor
  · exact skip_on_goes_on (exec_skipIfEqConst x nn s) beq_iff_eq
  · simpa only [Classical.not_not] using skip_on_goes_on (exec_skipIfNotEqConst x nn s) bne_iff_ne

/-- Settles O35: both instructions are skips, on equality and on its negation. -/
theorem skipOnRegisters : Obligations.SkipOnRegisters := by
  intro x y s
  constructor
  · exact skip_on_goes_on (exec_skipIfEqReg x y s) beq_iff_eq
  · simpa only [Classical.not_not] using skip_on_goes_on (exec_skipIfNotEqReg x y s) bne_iff_ne

/-- Settles O53, by whether `V[x]` names a key. -/
theorem keySkipsReadThePressedState : Obligations.KeySkipsReadThePressedState := by
  intro x s
  constructor
  · intro k hk
    have hindex : index16 (s.reg x) = some k := (index16_eq_some_iff _ _).2 hk.symm
    refine ⟨skip_goes_on (exec_skipIfKeyPressed_of_index hindex), ?_⟩
    obtain ⟨t, ht, hpc, hframe, hbytes⟩ := skip_goes_on (exec_skipIfKeyNotPressed_of_index hindex)
    exact ⟨t, ht, by cases hp : s.isPressed k <;> simpa [hp] using hpc, hframe, hbytes⟩
  · intro hbig
    have hindex : index16 (s.reg x) = none := (index16_eq_none_iff _).2 hbig
    exact ⟨exec_skipIfKeyPressed_of_no_index hindex, exec_skipIfKeyNotPressed_of_no_index hindex⟩

/-! ### CallRCA and KeyWait -/

/-- Settles O30: the word of CallRCA is its operand, the major opcode being 0. -/
theorem callRCAAlwaysFaults : Obligations.CallRCAAlwaysFaults := by
  intro nnn s
  have hword : (encode (.callRCA nnn)).toNat = nnn.toNat := by
    rw [encode, packA_toNat _ _ (by decide), Nat.zero_mul, Nat.zero_add]
  exact ⟨_, exec_callRCA nnn s, rfl, congrArg some hword⟩

theorem Frame.withLatch_setReg (s : State) (l : Option KeyId) (x : RegId) (b : Byte) :
    Frame s ((s.withLatch l).setReg x b) [x] [.latch] :=
  ((Frame.withLatch s l).mono (List.nil_subset _) (List.Subset.refl _)).trans
    ((Frame.setReg _ x b).mono (List.Subset.refl _) (List.nil_subset _))

theorem keyId_toByte_toNat (k : KeyId) : (BitVec.ofNat 8 k.val).toNat = k.val := by
  have hk := k.isLt
  rw [BitVec.toNat_ofNat]
  omega

/-- Settles O54, by the two values of the latch. -/
theorem keyWaitConsumesTheLatch : Obligations.KeyWaitConsumesTheLatch := by
  intro x s
  constructor
  · intro hnone
    exact ⟨_, exec_keyWait_of_latch_none x hnone, rfl, hnone, Frame.withPc s _, bytesSame_of_mem_eq rfl⟩
  · intro k hsome
    exact ⟨_, exec_keyWait_of_latch_some x hsome, by rw [State.reg_setReg_same, keyId_toByte_toNat], rfl, rfl,
      Frame.withLatch_setReg s none x _, bytesSame_of_mem_eq rfl⟩

/-- Settles O37: both instructions undo the fetch advance, one by jumping back and one by the rewind. -/
theorem selfJumpAndKeyWaitAreFixedPoints : Obligations.SelfJumpAndKeyWaitAreFixedPoints := by
  constructor
  · intro s e hrun hpc hw
    rw [step_of_decode hrun hw (decodeWord_encode _ rfl), exec_jump]
    change Host.Outcome.next (s.withPc (e.setWidth 16)) = _
    rw [← hpc]
    rfl
  · intro s x hrun hlatch hw
    have hback : s.pc + 2 - 2 = s.pc := BitVec.add_sub_cancel s.pc 2
    rw [step_of_decode hrun hw (decodeWord_encode _ rfl), exec_keyWait_of_latch_none x (s := s.advance) hlatch]
    change Host.Outcome.next (s.withPc (s.pc + 2 - 2)) = _
    rw [hback]
    rfl

/-! ### Sixteen calls and as many returns -/

/-- `f` on the next state, if there is one. -/
def thenExec (r : Result) (f : State → Result) : Result :=
  match r with
  | .next s => f s
  | stop => stop

/-- One call after another, one for each target. -/
def callAll (targets : List Addr12) (s : State) : Result :=
  targets.foldl (fun r nnn => thenExec r (exec (.call nnn))) (.next s)

/-- One return after another, one for each target. -/
def returnAll (targets : List Addr12) (s : State) : Result :=
  targets.foldl (fun r _ => thenExec r (exec .ret)) (.next s)

/-- Calls that fit the stack go on, and leave everything but `pc` and the new entries. -/
theorem callAll_goes_on (targets : List Addr12) (s : State) (h : s.depth + targets.length ≤ 16) :
    ∃ t pushed, callAll targets s = .next t ∧ t.stack = pushed ++ s.stack ∧ pushed.length = targets.length ∧
      (∀ r, t.reg r = s.reg r) ∧ t.mem = s.mem := by
  induction targets generalizing s with
  | nil => exact ⟨s, [], rfl, rfl, rfl, fun _ => rfl, rfl⟩
  | cons nnn targets ih =>
    rw [List.length_cons] at h
    have hcall := exec_call_of_depth_lt nnn (s := s) (by omega)
    have hdepth : ((s.push s.pc).withPc (addrOperand nnn)).depth = s.depth + 1 := rfl
    obtain ⟨t, pushed, ht, hstack, hlen, hreg, hmem⟩ := ih _ (by rw [hdepth]; omega)
    refine ⟨t, pushed ++ [s.pc], ?_, ?_, ?_, hreg, hmem⟩
    · rw [← ht, callAll, List.foldl_cons]
      exact congrArg (fun r => targets.foldl _ r) hcall
    · rw [hstack, List.append_assoc]
      rfl
    · rw [List.length_append, hlen]
      rfl

/-- As many returns as entries on top of `base` leave `base`. -/
theorem returnAll_goes_on (targets : List Addr12) (pushed base : List Word) (s : State)
    (hlen : pushed.length = targets.length) (hstack : s.stack = pushed ++ base) :
    ∃ u, returnAll targets s = .next u ∧ u.stack = base ∧ (∀ r, u.reg r = s.reg r) ∧ u.mem = s.mem := by
  induction targets generalizing pushed s with
  | nil =>
    obtain rfl := List.eq_nil_of_length_eq_zero hlen
    exact ⟨s, rfl, hstack, fun _ => rfl, rfl⟩
  | cons nnn targets ih =>
    cases pushed with
    | nil => cases hlen
    | cons a pushed =>
      have hret := exec_ret_of_stack_eq_cons (s := s) hstack
      obtain ⟨u, hu, hbase, hreg, hmem⟩ :=
        ih pushed ((s.withStack (pushed ++ base)).withPc a) (Nat.succ.inj hlen) rfl
      refine ⟨u, ?_, hbase, hreg, hmem⟩
      rw [← hu, returnAll, List.foldl_cons]
      exact congrArg (fun r => targets.foldl _ r) hret

/-- Settles O33: the calls fill the stack to 16, where a call overflows, and the returns take off what the calls put
on. -/
theorem sixteenCallsThenOverflow : Obligations.SixteenCallsThenOverflow := by
  intro targets s hfill
  obtain ⟨t, pushed, ht, hstack, hlen, hreg, hmem⟩ := callAll_goes_on targets s (Nat.le_of_eq hfill)
  obtain ⟨u, hu, hbase, hreg', hmem'⟩ := returnAll_goes_on targets pushed s.stack t hlen hstack
  have hfull : 16 ≤ t.depth := by
    rw [State.depth, hstack, List.length_append, hlen, ← hfill, State.depth]
    omega
  exact ⟨t, ht, fun nnn => ⟨_, exec_call_of_depth_ge nnn hfull, rfl⟩, u, hu, hbase,
    fun r => (hreg' r).trans (hreg r), bytesSame_of_mem_eq (hmem'.trans hmem)⟩

end Sys2Proof.Machine
end

section
/-! SUPPORT. The instructions that write a register and VF (41_alu.md R72 to R76) and GetRandom (R77): what each of them
answers, the value of each result and flag, and what both leave unchanged. -/

namespace Sys2Proof.Machine

/-! ### What each instruction answers -/

theorem exec_addReg (x y : RegId) (s : State) :
    exec (.addReg x y) s =
      .next (s.setFlagged x (addFlag (s.reg x) (s.reg y)) (addResult (s.reg x) (s.reg y))) := rfl

theorem exec_sub (x y : RegId) (s : State) :
    exec (.sub x y) s =
      .next (s.setFlagged x (subFlag (s.reg x) (s.reg y)) (subResult (s.reg x) (s.reg y))) := rfl

theorem exec_subRev (x y : RegId) (s : State) :
    exec (.subRev x y) s =
      .next (s.setFlagged x (subFlag (s.reg y) (s.reg x)) (subResult (s.reg y) (s.reg x))) := rfl

theorem exec_shr (x y : RegId) (s : State) :
    exec (.shr x y) s = .next (s.setFlagged x (shrFlag (s.reg y)) (shrResult (s.reg y))) := rfl

theorem exec_shl (x y : RegId) (s : State) :
    exec (.shl x y) s = .next (s.setFlagged x (shlFlag (s.reg y)) (shlResult (s.reg y))) := rfl

theorem exec_getRandom (x : RegId) (nn : Byte) (s : State) :
    exec (.getRandom x nn) s = .next ((s.withDraws (s.draws + 1)).setReg x (Config.rnd s.draws &&& nn)) := rfl

/-! ### Results and flags -/

theorem addFlag_eq (a b : Byte) : addFlag a b = if a.toNat + b.toNat > 255 then 1 else 0 := flag_decide _

@[simp] theorem subResult_toNat (a b : Byte) : (subResult a b).toNat = (a.toNat + 256 - b.toNat) % 256 :=
  BitVec.toNat_ofNat _ 8

theorem subFlag_eq (a b : Byte) : subFlag a b = if a.toNat < b.toNat then 0 else 1 := by
  rw [subFlag, ← decide_not, flag_decide, ite_not]

@[simp] theorem shrResult_toNat (b : Byte) : (shrResult b).toNat = b.toNat / 2 := by
  rw [shrResult, BitVec.toNat_ushiftRight, Nat.shiftRight_eq_div_pow]

@[simp] theorem shrFlag_toNat (b : Byte) : (shrFlag b).toNat = b.toNat % 2 := by
  rw [shrFlag, BitVec.toNat_and]
  exact Nat.and_two_pow_sub_one_eq_mod _ 1

@[simp] theorem shlResult_toNat (b : Byte) : (shlResult b).toNat = b.toNat * 2 % 256 := by
  rw [shlResult, BitVec.toNat_shiftLeft, Nat.shiftLeft_eq]

@[simp] theorem shlFlag_toNat (b : Byte) : (shlFlag b).toNat = b.toNat / 128 := by
  rw [shlFlag, BitVec.toNat_ushiftRight, Nat.shiftRight_eq_div_pow]

/-- What an instruction that writes a flag and a result does: the result stays in `V[x]`, the flag in VF when that is
another register, and nothing else changes (41_alu.md R64). -/
theorem setFlagged_goes_on {i : Instr} {s : State} {x : RegId} {f result : Byte}
    (h : exec i s = .next (s.setFlagged x f result)) :
    ∃ t, exec i s = .next t ∧ t.reg x = result ∧ (x ≠ 15 → t.reg 15 = f) ∧ Frame s t [x, 15] [] ∧ BytesSame s t := by
  refine ⟨_, h, ?_, fun hx => ?_, (Frame.setFlagged s x f result).mono ?_ (List.Subset.refl _), bytesSame_of_mem_eq rfl⟩
  · rw [State.reg_setFlagged, if_pos rfl]
  · rw [State.reg_setFlagged, if_neg (Ne.symm hx), if_pos rfl]
  · exact (List.Perm.swap _ _ _).subset

/-- Settles O40: the sum modulo 256 and its carry. -/
theorem addRegisterCarries : Obligations.AddRegisterCarries := by
  intro x y s
  obtain ⟨t, ht, hx, hvf, hframe, hbytes⟩ := setFlagged_goes_on (exec_addReg x y s)
  exact ⟨t, ht, by rw [hx, addResult_toNat], fun h => by rw [hvf h, addFlag_eq], hframe, hbytes⟩

/-- Settles O41: the difference modulo 256 and its not-borrow, of the two registers in either order. -/
theorem subtractionsBorrow : Obligations.SubtractionsBorrow := by
  intro x y s
  constructor
  · obtain ⟨t, ht, hx, hvf, hframe, hbytes⟩ := setFlagged_goes_on (exec_sub x y s)
    exact ⟨t, ht, by rw [hx, subResult_toNat], fun h => by rw [hvf h, subFlag_eq], hframe, hbytes⟩
  · obtain ⟨t, ht, hx, hvf, hframe, hbytes⟩ := setFlagged_goes_on (exec_subRev x y s)
    exact ⟨t, ht, by rw [hx, subResult_toNat], fun h => by rw [hvf h, subFlag_eq], hframe, hbytes⟩

/-- Settles O42: half or twice the source, and the bit that leaves. -/
theorem shiftsMoveTheSourceRegister : Obligations.ShiftsMoveTheSourceRegister := by
  intro x y s
  constructor
  · obtain ⟨t, ht, hx, hvf, hframe, hbytes⟩ := setFlagged_goes_on (exec_shr x y s)
    exact ⟨t, ht, by rw [hx, shrResult_toNat], fun h => by rw [hvf h, shrFlag_toNat], hframe, hbytes⟩
  · obtain ⟨t, ht, hx, hvf, hframe, hbytes⟩ := setFlagged_goes_on (exec_shl x y s)
    exact ⟨t, ht, by rw [hx, shlResult_toNat], fun h => by rw [hvf h, shlFlag_toNat], hframe, hbytes⟩

theorem Frame.withDraws_setReg (s : State) (n : Nat) (x : RegId) (b : Byte) :
    Frame s ((s.withDraws n).setReg x b) [x] [.draws] :=
  ((Frame.withDraws s n).mono (List.nil_subset _) (List.Subset.refl _)).trans
    ((Frame.setReg _ x b).mono (List.Subset.refl _) (List.nil_subset _))

/-- Settles O43: a bit of the masked byte is a bit of the mask. -/
theorem randomByteIsMasked : Obligations.RandomByteIsMasked := by
  intro x nn s
  refine ⟨_, exec_getRandom x nn s, State.reg_setReg_same _ x _, rfl, fun k hk => ?_, Frame.withDraws_setReg s _ x _,
    bytesSame_of_mem_eq rfl⟩
  rw [State.reg_setReg_same, BitVec.getLsbD_and, Bool.and_eq_true] at hk
  exact hk.2

end Sys2Proof.Machine
end

section
/-! SUPPORT. Memory by region (20_memory.md R25 to R30): what a read and a write answer at every address, and what a
fetch sees of the bytes stored at `pc`. -/

namespace Sys2Proof.Machine

/-! ### Reads and writes by region -/

theorem memRead_glyph (s : State) {a : Nat} (h : a < 80) : memRead s a = .ok (Config.glyphTable a) := by
  simp [memRead, resolve, romByte, h, show a < 0x1A0 by omega]

theorem memRead_rom_zero (s : State) {a : Nat} (h : 80 ≤ a) (h' : a < 0x1A0) : memRead s a = .ok 0 := by
  simp [memRead, resolve, romByte, h', show ¬ a < 80 by omega]

theorem memRead_reserved (s : State) {a : Nat} (h : (0x1A0 ≤ a ∧ a < 0x200) ∨ (0xEA0 ≤ a ∧ a < 0xF00)) :
    memRead s a = .error (.reservedRegionAccess a) := by
  rcases h with ⟨hlo, hhi⟩ | ⟨hlo, hhi⟩
  · simp [memRead, resolve, show ¬ a < 0x1A0 by omega, hhi]
  · simp [memRead, resolve, show ¬ a < 0x1A0 by omega, show ¬ a < 0x200 by omega, show ¬ a < 0xEA0 by omega, hhi]

theorem memRead_outOfRange (s : State) {a : Nat} (h : 0x1000 ≤ a) : memRead s a = .error (.addressOutOfRange a) := by
  simp [memRead, resolve, show ¬ a < 0x1A0 by omega, show ¬ a < 0x200 by omega, show ¬ a < 0xEA0 by omega,
    show ¬ a < 0xF00 by omega, show ¬ a < 0x1000 by omega]

theorem memRead_ram (s : State) {a : Nat} (h : 0x200 ≤ a) (h' : a < 0xEA0) : memRead s a = .ok (s.mem.get a) :=
  memRead_of_stored s a ((stored_iff a).2 (.inl ⟨h, h'⟩))

theorem memRead_framebuffer (s : State) {a : Nat} (h : 0xF00 ≤ a) (h' : a < 0x1000) :
    memRead s a = .ok (s.mem.fbGet (a - 0xF00)) := by
  have hread := memRead_fb s (a - 0xF00) (by omega)
  rwa [Nat.add_sub_cancel' h] at hread

/-- Settles O14, region by region. -/
theorem readByRegion : Obligations.ReadByRegion := fun s _ =>
  ⟨memRead_glyph s, memRead_rom_zero s, fun h h' => memRead_reserved s (.inl ⟨h, h'⟩), memRead_ram s,
    fun h h' => memRead_reserved s (.inr ⟨h, h'⟩), memRead_framebuffer s, memRead_outOfRange s⟩

/-- A readable address lies in the ROM, in RAM or in the framebuffer. -/
theorem region_of_memRead_eq_ok {s : State} {a : Nat} {u : Byte} (h : memRead s a = .ok u) :
    a < 0x1A0 ∨ (0x200 ≤ a ∧ a < 0xEA0) ∨ (0xF00 ≤ a ∧ a < 0x1000) := by
  refine Decidable.byContradiction fun hout => ?_
  by_cases hlarge : 0x1000 ≤ a
  · rw [memRead_outOfRange s hlarge] at h; cases h
  · rw [memRead_reserved s (by omega)] at h; cases h

/-- A write where there is storage is read back and changes no other byte. -/
theorem memWrite_reads_back {s t : State} {a : Nat} {u : Byte} (h : memWrite s a u = .ok t) :
    memRead t a = .ok u ∧ BytesSameOutside s t a 1 := by
  obtain ⟨hstored, rfl⟩ := (memWrite_ok_iff s t a u).1 h
  refine ⟨(memRead_of_stored _ a hstored).trans ?_, bytesSameOutside_of_set rfl⟩
  exact congrArg Except.ok (Memory.get_set_same s.mem a u)

/-- Settles O15, region by region. -/
theorem writeByRegion : Obligations.WriteByRegion := by
  intro s a u
  refine ⟨fun h h' => ?ram, fun h h' => ?framebuffer, fun h => ?rom, fun h h' => ?below, fun h h' => ?above,
    fun h => ?outOfRange⟩
  case ram =>
    have hw := memWrite_of_stored s a u ((stored_iff a).2 (.inl ⟨h, h'⟩))
    have hdirty : (s.dirty || decide (Config.fbBase ≤ a)) = s.dirty := by
      simp [show ¬ 0xF00 ≤ a by omega]
    rw [hdirty] at hw
    obtain ⟨hback, hbytes⟩ := memWrite_reads_back hw
    exact ⟨_, hw, hback, Frame.withMem s _, hbytes⟩
  case framebuffer =>
    have hw := memWrite_of_stored s a u ((stored_iff a).2 (.inr ⟨h, h'⟩))
    obtain ⟨hback, hbytes⟩ := memWrite_reads_back hw
    exact ⟨_, hw, hback, by simp [h], Frame.withMem_withDirty s _ _, hbytes⟩
  case rom => exact (memWrite_error_iff s a u _).2 (.inl ⟨h, rfl⟩)
  case below => exact (memWrite_error_iff s a u _).2 (.inr (.inl ⟨.inl ⟨h, h'⟩, rfl⟩))
  case above => exact (memWrite_error_iff s a u _).2 (.inr (.inl ⟨.inr ⟨h, h'⟩, rfl⟩))
  case outOfRange => exact (memWrite_error_iff s a u _).2 (.inr (.inr ⟨h, rfl⟩))

/-! ### Word reads -/

theorem memReadWord_eq_error_of_high {s : State} {a : Nat} {e : AccessFault} (h : memRead s a = .error e) :
    memReadWord s a = .error e := by
  simp [memReadWord, h]

theorem memReadWord_eq_error_of_low {s : State} {a : Nat} {hi : Byte} {e : AccessFault} (hhi : memRead s a = .ok hi)
    (hlo : memRead s (a + 1) = .error e) : memReadWord s a = .error e := by
  simp [memReadWord, hhi, hlo]

theorem eq_wordOfBytes_iff (w : Word) (hi lo : Byte) :
    w = wordOfBytes hi lo ↔ w.toNat = hi.toNat * 256 + lo.toNat := by
  rw [← BitVec.toNat_inj, wordOfBytes_toNat]

/-- Two neighbouring readable addresses lie in one region. -/
theorem region_of_memReadWord_eq_ok {s : State} {a : Nat} {w : Word} (h : memReadWord s a = .ok w) :
    a + 1 < 0x1A0 ∨ (0x200 ≤ a ∧ a + 1 < 0xEA0) ∨ (0xF00 ≤ a ∧ a + 1 < 0x1000) := by
  obtain ⟨hi, lo, hhi, hlo, -⟩ := (memReadWord_ok_iff s a w).1 h
  have hfirst := region_of_memRead_eq_ok hhi
  have hsecond := region_of_memRead_eq_ok hlo
  omega

/-- Settles O16: the two byte reads, each at its region. -/
theorem wordReadIsTwoByteReads : Obligations.WordReadIsTwoByteReads := by
  intro s
  refine ⟨fun a w => ?_, fun a w => region_of_memReadWord_eq_ok, ?_, ?_, ?_, ?_, ?_⟩
  · simp only [memReadWord_ok_iff, eq_wordOfBytes_iff]
  · exact memReadWord_eq_error_of_low (memRead_rom_zero s (by decide) (by decide)) (memRead_reserved s (by decide))
  · exact memReadWord_eq_error_of_high (memRead_reserved s (by decide))
  · exact memReadWord_eq_error_of_low (memRead_ram s (by decide) (by decide)) (memRead_reserved s (by decide))
  · exact memReadWord_eq_error_of_high (memRead_reserved s (by decide))
  · exact memReadWord_eq_error_of_low (memRead_framebuffer s (by decide) (by decide))
      (memRead_outOfRange s (by decide))

/-! ### What a fetch sees of the bytes stored at `pc` -/

theorem fetch_of_setMany {t : State} {m : Memory} {hi lo : Byte} {rest : List Byte}
    (hmem : t.mem = m.setMany t.pc.toNat (hi :: lo :: rest)) (h : stored t.pc.toNat = true)
    (h' : stored (t.pc.toNat + 1) = true) : fetch t = .ok (wordOfBytes hi lo) := by
  rw [fetch_of_stored h h', hmem, Memory.get_setMany, Memory.get_setMany, dif_pos (by simp), dif_pos (by simp)]
  simp

/-- Settles O17: a run of writes that goes on had storage at both addresses, and the fetch reads them back. -/
theorem fetchSeesEarlierStores : Obligations.FetchSeesEarlierStores := by
  intro s t hi lo h
  obtain ⟨hstored, rfl⟩ := (memWriteMany_ok_iff _ s t _).1 h
  exact ⟨_, fetch_of_setMany rfl (hstored 0 (by simp)) (hstored 1 (by simp)), wordOfBytes_toNat hi lo⟩

end Sys2Proof.Machine
end

section
/-! SUPPORT. The instructions that read or write memory at `I` (42_address.md R80 to R83): what each of them answers,
and what a store and a load of several bytes do when every address allows it, and when one does not. -/

namespace Sys2Proof.Machine

/-! ### What each instruction answers -/

theorem exec_loadGlyph_of_index {x : RegId} {s : State} {d : Fin 16} (h : index16 (s.reg x) = some d) :
    exec (.loadGlyph x) s = .next (s.withI (BitVec.ofNat 16 (5 * d.val))) := by
  change execLoadGlyph x s = _
  rw [execLoadGlyph, h]
  simp

theorem exec_loadGlyph_of_no_index {x : RegId} {s : State} (h : index16 (s.reg x) = none) :
    exec (.loadGlyph x) s = .fault (.invalidGlyphIndex s.here (encode (.loadGlyph x)) (s.reg x)) := by
  change execLoadGlyph x s = _
  rw [execLoadGlyph, h]

theorem exec_storeBcd (x : RegId) (s : State) :
    exec (.storeBcd x) s = storeAtI (.storeBcd x) (bcdDigits (s.reg x)) s := rfl

theorem exec_storeBytes (x : RegId) (s : State) :
    exec (.storeBytes x) s = storeAtI (.storeBytes x) (s.regsUpTo x) s := rfl

theorem exec_loadBytes_of_ok {x : RegId} {s : State} {us : List Byte}
    (h : memReadMany s (memOperand s) (x.val + 1) = .ok us) : exec (.loadBytes x) s = .next (s.setRegs 0 us) := by
  change execLoadBytes x s = _
  rw [execLoadBytes, h]

theorem exec_loadBytes_of_error {x : RegId} {s : State} {e : AccessFault}
    (h : memReadMany s (memOperand s) (x.val + 1) = .error e) :
    exec (.loadBytes x) s = .fault (e.toFault s.here (some (encode (.loadBytes x)))) := by
  change execLoadBytes x s = _
  rw [execLoadBytes, h]

theorem exec_draw_of_ok {x y : RegId} {n : Fin 16} {s : State} {rows : List Byte}
    (h : memReadMany s (memOperand s) n.val = .ok rows) :
    exec (.draw x y n) s = .next ((fbDraw s (s.reg x) (s.reg y) rows).2.setReg vf
      (collisionFlag (fbDraw s (s.reg x) (s.reg y) rows).1)) := by
  change execDraw x y n s = _
  rw [execDraw, h]

theorem exec_draw_of_error {x y : RegId} {n : Fin 16} {s : State} {e : AccessFault}
    (h : memReadMany s (memOperand s) n.val = .error e) :
    exec (.draw x y n) s = .fault (e.toFault s.here (some (encode (.draw x y n)))) := by
  change execDraw x y n s = _
  rw [execDraw, h]

/-! ### LoadGlyph -/

theorem glyphAddress_toNat (d : Fin 16) : (BitVec.ofNat 16 (5 * d.val)).toNat = 5 * d.val := by
  have hd := d.isLt
  rw [BitVec.toNat_ofNat]
  omega

/-- Settles O45, by whether `V[x]` is a digit. -/
theorem loadGlyphPointsAtDigit : Obligations.LoadGlyphPointsAtDigit := by
  intro x s
  constructor
  · intro hsmall
    have hindex : index16 (s.reg x) = some ⟨(s.reg x).toNat, by omega⟩ := (index16_eq_some_iff _ _).2 rfl
    exact ⟨_, exec_loadGlyph_of_index hindex, glyphAddress_toNat _, Frame.withI s _, bytesSame_of_mem_eq rfl⟩
  · intro hbig
    exact exec_loadGlyph_of_no_index ((index16_eq_none_iff _).2 hbig)

/-! ### Stores -/

/-- A store at the memory operand whose addresses all have storage: each byte is read back, the display is marked when
the bytes lie in the framebuffer, and nothing else changes. -/
theorem storeAtI_goes_on (i : Instr) (us : List Byte) (s : State) (hne : us ≠ [])
    (hstored : ∀ k, k < us.length → stored (memOperand s + k) = true) :
    ∃ t, storeAtI i us s = .next t ∧ (∀ k (h : k < us.length), memRead t (memOperand s + k) = .ok us[k]) ∧
      t.dirty = (s.dirty || decide (0xF00 ≤ memOperand s)) ∧ Frame s t [] [.dirty] ∧
      BytesSameOutside s t (memOperand s) us.length := by
  refine ⟨_, (storeAtI_next_iff i us s _).2 ⟨hstored, rfl⟩, fun k hk => ?_, ?_, Frame.withMem_withDirty s _ _,
    bytesSameOutside_of_setMany rfl⟩
  · rw [memRead_of_stored _ _ (hstored k hk), State.withDirty_mem, State.withMem_mem, Memory.get_setMany,
      dif_pos (by omega)]
    simp
  · have hempty : us.isEmpty = false := List.isEmpty_eq_false_iff.2 hne
    simp [hempty]

theorem bcdDigits_value (b : Byte) :
    (BitVec.ofNat 8 (b.toNat / 10 % 10)).toNat < 10 ∧ (BitVec.ofNat 8 (b.toNat % 10)).toNat < 10 ∧
      (BitVec.ofNat 8 (b.toNat / 100)).toNat * 100 + (BitVec.ofNat 8 (b.toNat / 10 % 10)).toNat * 10 +
        (BitVec.ofNat 8 (b.toNat % 10)).toNat = b.toNat := by
  have hb := b.isLt
  simp only [BitVec.toNat_ofNat]
  omega

/-- Settles O46: a store of the three decimal digits. -/
theorem storeBcdStoresDigits : Obligations.StoreBcdStoresDigits := by
  intro x s hstored
  obtain ⟨t, ht, hback, hdirty, hframe, hbytes⟩ :=
    storeAtI_goes_on (.storeBcd x) (bcdDigits (s.reg x)) s (List.cons_ne_nil _ _) hstored
  refine ⟨t, ht, ⟨_, _, _, hback 0 ?_, hback 1 ?_, hback 2 ?_, bcdDigits_value (s.reg x)⟩, hdirty, hframe, hbytes⟩
  all_goals simp [bcdDigits]

/-- Settles O47: a store of `V[0]` to `V[x]`. -/
theorem storeBytesStoresRegisters : Obligations.StoreBytesStoresRegisters := by
  intro x s hstored
  have hlen := State.length_regsUpTo s x
  obtain ⟨t, ht, hback, hdirty, hframe, hbytes⟩ :=
    storeAtI_goes_on (.storeBytes x) (s.regsUpTo x) s (List.ne_nil_of_length_pos (by omega))
      (fun k hk => hstored k (by omega))
  refine ⟨t, ht, fun r hr => ?_, hdirty, hframe, hlen ▸ hbytes⟩
  have hr : r.val ≤ x.val := hr
  rw [hback r.val (by omega), State.getElem_regsUpTo]

/-! ### Loads -/

/-- A run of reads at readable addresses succeeds. -/
theorem memReadMany_of_readable (s : State) (a n : Nat) (h : ∀ k, k < n → ∃ u, memRead s (a + k) = .ok u) :
    ∃ us, memReadMany s a n = .ok us := by
  induction n generalizing a with
  | zero => exact ⟨[], rfl⟩
  | succ n ih =>
    obtain ⟨u, hu⟩ := h 0 (Nat.succ_pos n)
    obtain ⟨us, hus⟩ := ih (a + 1) fun k hk => by
      rw [Nat.add_assoc, Nat.add_comm 1 k]
      exact h (k + 1) (Nat.succ_lt_succ hk)
    rw [Nat.add_zero] at hu
    exact ⟨u :: us, by rw [memReadMany, hu, hus]⟩

theorem mem_regsWritten_loadBytes_iff (x r : RegId) : r ∈ regsWritten (.loadBytes x) ↔ r.val ≤ x.val := by
  rw [regsWritten, List.mem_filter, decide_eq_true_eq, Fin.le_def]
  exact and_iff_right (List.mem_finRange r)

theorem Frame.setRegs (s : State) (x : RegId) (us : List Byte) (hlen : us.length = x.val + 1) :
    Frame s (s.setRegs 0 us) (regsWritten (.loadBytes x)) [] := by
  have hx := x.isLt
  constructor
  · intro r hr
    rw [mem_regsWritten_loadBytes_iff] at hr
    rw [State.reg_setRegs us s 0 r (by omega), dif_neg (by omega)]
  · intro p _
    obtain ⟨v, hv⟩ := State.setRegs_eq_withV us s 0
    rw [hv]
    cases p <;> rfl

theorem State.setRegs_mem (s : State) (i : Nat) (us : List Byte) : (s.setRegs i us).mem = s.mem := by
  obtain ⟨v, hv⟩ := State.setRegs_eq_withV us s i
  rw [hv, State.withV_mem]

/-- Settles O48: the bytes read are the registers written, up to `V[x]`. -/
theorem loadBytesLoadsRegisters : Obligations.LoadBytesLoadsRegisters := by
  intro x s hreadable
  have hx := x.isLt
  obtain ⟨us, hus⟩ := memReadMany_of_readable s (memOperand s) (x.val + 1) (fun k hk => hreadable k (by omega))
  obtain ⟨hlen, hread⟩ := (memReadMany_ok_iff s _ _ us).1 hus
  have hframe := Frame.setRegs s x us hlen
  refine ⟨_, exec_loadBytes_of_ok hus, fun r hr => ?_, fun r hr => hframe.regs r ?_, hframe,
    bytesSame_of_mem_eq (State.setRegs_mem s 0 us)⟩
  · have hr : r.val ≤ x.val := hr
    rw [hread r.val (by omega), State.reg_setRegs us s 0 r (by omega), dif_pos (by omega)]
    rfl
  · rw [mem_regsWritten_loadBytes_iff]
    exact Nat.not_le.2 hr

/-! ### The first address that fails -/

theorem storeAtI_faults_at_first (i : Instr) (us : List Byte) (s : State) (k : Nat) (u : Byte) (e : AccessFault)
    (hk : k < us.length) (hbefore : ∀ j, j < k → stored (memOperand s + j) = true)
    (h : memWrite s (memOperand s + k) u = .error e) :
    storeAtI i us s = .fault (e.toFault s.here (some (encode i))) := by
  have hzero : memWrite s (memOperand s + k) 0 = .error e :=
    (memWrite_error_iff _ _ _ _).2 ((memWrite_error_iff _ _ u _).1 h)
  exact (storeAtI_fault_iff i us s _).2 ⟨e, memWriteMany_error_of_first us s _ k e hk hbefore hzero, rfl⟩

/-- Settles O49: each access goes up from `I`, so the first failure decides. -/
theorem firstFailingAddressIsReported : Obligations.FirstFailingAddressIsReported := by
  refine ⟨?loadBytes, ?draw, ?storeBytes, ?storeBcd⟩
  case loadBytes =>
    intro x s k e hk hbefore h
    exact exec_loadBytes_of_error (memReadMany_error_of_first s _ _ k e (by omega) hbefore h)
  case draw =>
    intro x y n s k e hk hbefore h
    exact exec_draw_of_error (memReadMany_error_of_first s _ _ k e hk hbefore h)
  case storeBytes =>
    intro x s k u e hk hbefore h
    exact storeAtI_faults_at_first _ _ s k u e (by rw [State.length_regsUpTo]; omega) hbefore h
  case storeBcd =>
    intro x s k u e hk hbefore h
    exact storeAtI_faults_at_first _ _ s k u e hk hbefore h

end Sys2Proof.Machine
end

section
/-! SUPPORT. The display (43_display.md R85 to R90) pixel by pixel: the bits that a sprite flips are its pixels, and a
draw collides exactly where one of them was lit. -/

namespace Sys2Proof.Machine

/-! ### ClearScreen -/

theorem exec_clearScreen (s : State) : exec .clearScreen s = .next (fbClear s) := rfl

theorem Frame.fbClear (s : State) : Frame s (Machine.fbClear s) [] [.dirty] := Frame.withMem_withDirty s _ _

theorem bytesSameOutside_fbClear (s : State) : BytesSameOutside s (fbClear s) Config.fbBase Config.fbSize :=
  bytesSameOutside_fb fun a ha => (Memory.get_fbZero s.mem a).trans (if_neg (by omega))

/-- Settles O50: every framebuffer byte is zeroed, and the update touches memory and `dirty` only. -/
theorem clearScreenZeroesTheFramebuffer : Obligations.ClearScreenZeroesTheFramebuffer := by
  intro s
  refine ⟨_, exec_clearScreen s, fun k hk => ?_, rfl, Frame.fbClear s, bytesSameOutside_fbClear s⟩
  rw [memRead_fb _ k hk]
  exact congrArg Except.ok (Memory.fbGet_fbZero s.mem k hk)

/-! ### Bits and pixels -/

theorem and_ne_zero_iff (a b : Byte) :
    a &&& b ≠ 0#8 ↔ ∃ k, k < 8 ∧ a.getLsbD k = true ∧ b.getLsbD k = true := by
  constructor
  · intro h
    refine Classical.byContradiction fun hnone => h (BitVec.eq_of_getLsbD_eq fun k hk => ?_)
    rw [BitVec.getLsbD_and, BitVec.getLsbD_zero, ← Bool.not_eq_true, Bool.and_eq_true]
    exact fun hbits => hnone ⟨k, hk, hbits⟩
  · rintro ⟨k, -, ha, hb⟩ h
    have hk : (a &&& b).getLsbD k = false := by rw [h, BitVec.getLsbD_zero]
    rw [BitVec.getLsbD_and, ha, hb] at hk
    cases hk

/-- The bits of the 256 framebuffer bytes are the pixels of the 64 columns and 32 rows (10_state.md R15). -/
theorem exists_bit_iff_exists_pixel (P : Nat → Nat → Prop) :
    (∃ j, j < 256 ∧ ∃ k, k < 8 ∧ P j k) ↔ ∃ c r, c < 64 ∧ r < 32 ∧ P (8 * r + c / 8) (7 - c % 8) := by
  constructor
  · rintro ⟨j, hj, k, hk, h⟩
    refine ⟨8 * (j % 8) + (7 - k), j / 8, by omega, by omega, ?_⟩
    rwa [show 8 * (j / 8) + (8 * (j % 8) + (7 - k)) / 8 = j by omega,
      show 7 - (8 * (j % 8) + (7 - k)) % 8 = k by omega]
  · rintro ⟨c, r, hc, hr, h⟩
    exact ⟨8 * r + c / 8, by omega, 7 - c % 8, by omega, h⟩

/-- The bit of the sprite's bytes at a pixel's place is the sprite's pixel there (43_display.md R86). -/
theorem spriteByte_getLsbD (rows : List Byte) (cx cy c r : Nat) (hl : rows.length ≤ 32) (hc : c < 64) (hr : r < 32) :
    (spriteByte cx cy 0 rows (8 * r + c / 8)).getLsbD (7 - c % 8) = spritePixel rows cx cy c r := by
  have hrow : (8 * r + c / 8) / 8 = r := by omega
  have hbyte : (8 * r + c / 8) % 8 = c / 8 := by omega
  rw [spriteByte_eq cx cy rows 0 _ hl (by omega), hrow, hbyte, Nat.add_zero, spritePixel, List.getD_eq_getElem?_getD]
  cases rows[(r + 32 - cy % 32) % 32]? with
  | none => simp
  | some u => exact rowByte_getLsbD (cx % 64) u c (by omega) hc

/-! ### A draw -/

theorem fbGet_fbDraw (s : State) (cx cy : Byte) (rows : List Byte) (j : Nat) :
    (fbDraw s cx cy rows).2.mem.fbGet j = s.mem.fbGet j ^^^ spriteByte cx.toNat cy.toNat 0 rows j :=
  fbGet_blitRows cx.toNat cy.toNat rows (s.mem, false) 0 j

theorem pixel_fbDraw (s : State) (cx cy : Byte) (rows : List Byte) {c r : Nat} (hl : rows.length ≤ 32) (hc : c < 64)
    (hr : r < 32) :
    (fbDraw s cx cy rows).2.pixel c r = (s.pixel c r ^^ spritePixel rows cx.toNat cy.toNat c r) := by
  rw [State.pixel, fbGet_fbDraw, BitVec.getLsbD_xor, spriteByte_getLsbD rows _ _ c r hl hc hr, State.pixel]

/-- A draw collides exactly where the sprite covers a lit pixel (43_display.md R87). -/
theorem collides_fbDraw_iff (s : State) (cx cy : Byte) (rows : List Byte) (hl : rows.length ≤ 32) :
    (fbDraw s cx cy rows).1 = true ↔
      ∃ c r, c < 64 ∧ r < 32 ∧ s.pixel c r = true ∧ spritePixel rows cx.toNat cy.toNat c r = true := by
  have hhit := hit_blitRows cx.toNat cy.toNat rows (s.mem, false) 0 hl
  simp only [Bool.false_eq_true, false_or, and_ne_zero_iff] at hhit
  refine hhit.trans ((exists_bit_iff_exists_pixel _).trans ?_)
  refine exists_congr fun c => exists_congr fun r => and_congr_right fun hc => and_congr_right fun hr => ?_
  rw [spriteByte_getLsbD rows _ _ c r hl hc hr, State.pixel]

theorem Frame.fbDraw (s : State) (cx cy : Byte) (rows : List Byte) :
    Frame s (Machine.fbDraw s cx cy rows).2 [] [.dirty] := Frame.withMem_withDirty s _ _

theorem Frame.fbDraw_setReg (s : State) (cx cy : Byte) (rows : List Byte) (b : Byte) :
    Frame s ((Machine.fbDraw s cx cy rows).2.setReg vf b) [vf] [.dirty] :=
  ((Frame.fbDraw s cx cy rows).mono (List.nil_subset _) (List.Subset.refl _)).trans
    ((Frame.setReg _ vf b).mono (List.Subset.refl _) (List.nil_subset _))

theorem bytesSameOutside_fbDraw_setReg (s : State) (cx cy : Byte) (rows : List Byte) (b : Byte) :
    BytesSameOutside s ((fbDraw s cx cy rows).2.setReg vf b) Config.fbBase Config.fbSize :=
  bytesSameOutside_fb fun a ha => get_blitRows_of_lt cx.toNat cy.toNat rows (s.mem, false) 0 a ha

/-- Settles O51: the source is read whole, then each framebuffer bit is flipped by the sprite's pixel at its place, and
VF is the collision. -/
theorem drawFlipsTheSpritePixels : Obligations.DrawFlipsTheSpritePixels := by
  intro x y n s rows hlen hrows
  have hl : rows.length ≤ 32 := by
    have := n.isLt
    omega
  have hread : memReadMany s (memOperand s) n.val = .ok rows := (memReadMany_ok_iff s _ _ rows).2 ⟨hlen, hrows⟩
  have hcollides := collides_fbDraw_iff s (s.reg x) (s.reg y) rows hl
  have hvf := State.reg_setReg_same (fbDraw s (s.reg x) (s.reg y) rows).2 vf
    (collisionFlag (fbDraw s (s.reg x) (s.reg y) rows).1)
  refine ⟨_, exec_draw_of_ok hread, fun c r hc hr => pixel_fbDraw s _ _ rows hl hc hr, fun hlit => ?_, fun hdark => ?_,
    rfl, Frame.fbDraw_setReg s _ _ rows _, bytesSameOutside_fbDraw_setReg s _ _ rows _⟩
  · exact hvf.trans (congrArg collisionFlag (hcollides.2 hlit))
  · exact hvf.trans (congrArg collisionFlag (Bool.eq_false_iff.2 (mt hcollides.1 hdark)))

/-! ### Drawing twice -/

theorem exists_getLsbD_of_ne_zero {u : Byte} (h : u ≠ 0) : ∃ k, k < 8 ∧ u.getLsbD k = true := by
  obtain ⟨k, hk, hbit, -⟩ := (and_ne_zero_iff u u).1 (by rwa [BitVec.and_self])
  exact ⟨k, hk, hbit⟩

/-- A sprite of at most 32 rows has a lit pixel on the display exactly when one of its bytes has a set bit: wrapping
loses none. -/
theorem exists_spritePixel_iff (rows : List Byte) (cx cy : Nat) (hl : rows.length ≤ 32) :
    (∃ c r, c < 64 ∧ r < 32 ∧ spritePixel rows cx cy c r = true) ↔ ∃ u ∈ rows, u ≠ 0 := by
  constructor
  · rintro ⟨c, r, -, -, hlit⟩
    simp only [spritePixel, Bool.and_eq_true, List.getD_eq_getElem?_getD] at hlit
    obtain ⟨-, hbit⟩ := hlit
    cases hu : rows[(r + 32 - cy % 32) % 32]? with
    | none => simp [hu] at hbit
    | some u =>
      refine ⟨u, List.mem_of_getElem? hu, ?_⟩
      rintro rfl
      simp [hu] at hbit
  · rintro ⟨u, hu, hne⟩
    obtain ⟨i, hi, rfl⟩ := List.getElem_of_mem hu
    obtain ⟨k, hk, hbit⟩ := exists_getLsbD_of_ne_zero hne
    have hcol : ((cx + (7 - k)) % 64 + 64 - cx % 64) % 64 = 7 - k := by omega
    have hrow : ((cy + i) % 32 + 32 - cy % 32) % 32 = i := by omega
    refine ⟨(cx + (7 - k)) % 64, (cy + i) % 32, by omega, by omega, ?_⟩
    rw [spritePixel, hcol, hrow, List.getD_eq_getElem?_getD, List.getElem?_eq_getElem hi, Option.getD_some,
      show 7 - (7 - k) = k by omega, hbit, decide_eq_true (by omega)]
    rfl

theorem pixel_of_blank {s : State} (hblank : ∀ k, k < 256 → s.mem.fbGet k = 0) {c r : Nat} (hc : c < 64) (hr : r < 32) :
    s.pixel c r = false := by
  rw [State.pixel, hblank _ (by omega)]
  exact BitVec.getLsbD_zero

/-- Over a blank display a draw reports no collision. -/
theorem collides_of_blank {s : State} (hblank : ∀ k, k < 256 → s.mem.fbGet k = 0) (cx cy : Byte) (rows : List Byte)
    (hl : rows.length ≤ 32) : (fbDraw s cx cy rows).1 = false := by
  rw [← Bool.not_eq_true, collides_fbDraw_iff s cx cy rows hl]
  rintro ⟨c, r, hc, hr, hlit, -⟩
  rw [pixel_of_blank hblank hc hr] at hlit
  cases hlit

/-- After a draw over a blank display the display shows the sprite, so drawing it again collides exactly when it has a
set bit. -/
theorem collides_again_of_blank_iff {s : State} (hblank : ∀ k, k < 256 → s.mem.fbGet k = 0) (cx cy : Byte)
    (rows : List Byte) (hl : rows.length ≤ 32) :
    (fbDraw (fbDraw s cx cy rows).2 cx cy rows).1 = true ↔ ∃ u ∈ rows, u ≠ 0 := by
  rw [collides_fbDraw_iff _ cx cy rows hl, ← exists_spritePixel_iff rows cx.toNat cy.toNat hl]
  refine exists_congr fun c => exists_congr fun r => and_congr_right fun hc => and_congr_right fun hr => ?_
  rw [pixel_fbDraw s cx cy rows hl hc hr, pixel_of_blank hblank hc hr, Bool.false_xor, and_self]

/-- Settles O52: the second draw XORs the same bytes as the first, and collides with exactly those. -/
theorem drawingTwiceErases : Obligations.DrawingTwiceErases := by
  intro s cx cy rows hlen
  have hl : rows.length ≤ 32 := by omega
  refine ⟨fun k _ => ?_, fun hblank => ⟨collides_of_blank hblank cx cy rows hl, fun hset => ?_, fun hclear => ?_⟩⟩
  · rw [fbGet_fbDraw, fbGet_fbDraw, BitVec.xor_assoc, BitVec.xor_self, BitVec.xor_zero]
  · exact (collides_again_of_blank_iff hblank cx cy rows hl).2 hset
  · rw [← Bool.not_eq_true, collides_again_of_blank_iff hblank cx cy rows hl]
    rintro ⟨u, hu, hne⟩
    exact hne (hclear u hu)

end Sys2Proof.Machine
end

section
/-! SUPPORT. Faults (60_exceptions.md R97 to R101): every instruction either goes on or raises a fault of its own row of
the fault table with its own record, and the step and the host call pass that fault on. Then the host calls that are no
step (R107 to R115): what each of them answers and leaves unchanged. -/

namespace Sys2Proof.Machine

/-! ### What an instruction can answer -/

theorem faultAddress_toFault (a : Word) (w : Option Word) (e : AccessFault) : faultAddress (e.toFault a w) = a := by
  cases e <;> rfl

theorem faultWord_toFault (a : Word) (w : Option Word) (e : AccessFault) : faultWord (e.toFault a w) = w := by
  cases e <;> rfl

/-- Every fault of an access is one of the three a store may raise. -/
theorem faultKind_toFault_mem (a : Word) (w : Option Word) (e : AccessFault) :
    faultKind (e.toFault a w) ∈ [FaultKind.addressOutOfRange, .reservedRegionAccess, .readOnlyWrite] := by
  cases e <;> simp [AccessFault.toFault, faultKind]

theorem memRead_error_cases {s : State} {a : Nat} {e : AccessFault} (h : memRead s a = .error e) :
    e = .reservedRegionAccess a ∨ e = .addressOutOfRange a := by
  unfold memRead at h
  split at h <;> cases h
  · exact .inl rfl
  · exact .inr rfl

/-- A read never faults as a write to the ROM. -/
theorem faultKind_of_memReadMany_error {s : State} {a n : Nat} {e : AccessFault} (h : memReadMany s a n = .error e)
    (pc : Word) (w : Option Word) :
    faultKind (e.toFault pc w) ∈ [FaultKind.addressOutOfRange, .reservedRegionAccess] := by
  induction n generalizing a with
  | zero => cases h
  | succ n ih =>
    unfold memReadMany at h
    cases hr : memRead s a with
    | error e' =>
      rw [hr] at h
      cases h
      obtain rfl | rfl := memRead_error_cases hr <;> simp [AccessFault.toFault, faultKind]
    | ok u =>
      rw [hr] at h
      dsimp only at h
      cases hm : memReadMany s (a + 1) n with
      | error e' =>
        rw [hm] at h
        cases h
        exact ih hm
      | ok us =>
        rw [hm] at h
        cases h

/-- The fault is one that the fault table gives the instruction `i`, with the record of `i` in `s`
(60_exceptions.md R98, R99). -/
def RaisedBy (i : Instr) (s : State) (f : Fault) : Prop :=
  faultAddress f = s.here ∧ faultWord f = some (encode i) ∧ faultKind f ∈ mayRaise i

theorem storeAtI_goes_on_or_faults (i : Instr) (us : List Byte) (s : State)
    (hi : mayRaise i = [.addressOutOfRange, .reservedRegionAccess, .readOnlyWrite]) :
    (∃ t, storeAtI i us s = .next t) ∨ ∃ f, storeAtI i us s = .fault f ∧ RaisedBy i s f := by
  unfold storeAtI
  cases memWriteMany s (memOperand s) us with
  | ok t => exact .inl ⟨t, rfl⟩
  | error e =>
    exact .inr ⟨_, rfl, faultAddress_toFault _ _ e, faultWord_toFault _ _ e, hi ▸ faultKind_toFault_mem _ _ e⟩

/-- Every instruction goes on, or raises a fault of its own; none is refused. -/
theorem exec_goes_on_or_faults (i : Instr) (s : State) :
    (∃ t, exec i s = .next t) ∨ ∃ f, exec i s = .fault f ∧ RaisedBy i s f := by
  cases i with
  | ret =>
    cases hs : s.stack with
    | nil => exact .inr ⟨_, exec_ret_of_stack_eq_nil hs, rfl, rfl, List.mem_singleton_self _⟩
    | cons a rest => exact .inl ⟨_, exec_ret_of_stack_eq_cons hs⟩
  | call nnn =>
    by_cases hroom : s.depth < 16
    · exact .inl ⟨_, exec_call_of_depth_lt nnn hroom⟩
    · exact .inr ⟨_, exec_call_of_depth_ge nnn (Nat.not_lt.1 hroom), rfl, rfl, List.mem_singleton_self _⟩
  | callRCA nnn => exact .inr ⟨_, exec_callRCA nnn s, rfl, rfl, List.mem_singleton_self _⟩
  | loadGlyph x =>
    cases hd : index16 (s.reg x) with
    | none => exact .inr ⟨_, exec_loadGlyph_of_no_index hd, rfl, rfl, List.mem_singleton_self _⟩
    | some d => exact .inl ⟨_, exec_loadGlyph_of_index hd⟩
  | skipIfKeyPressed x =>
    cases hk : index16 (s.reg x) with
    | none => exact .inr ⟨_, exec_skipIfKeyPressed_of_no_index hk, rfl, rfl, List.mem_singleton_self _⟩
    | some k => exact .inl ⟨_, exec_skipIfKeyPressed_of_index hk⟩
  | skipIfKeyNotPressed x =>
    cases hk : index16 (s.reg x) with
    | none => exact .inr ⟨_, exec_skipIfKeyNotPressed_of_no_index hk, rfl, rfl, List.mem_singleton_self _⟩
    | some k => exact .inl ⟨_, exec_skipIfKeyNotPressed_of_index hk⟩
  | keyWait x =>
    cases hk : s.latch with
    | none => exact .inl ⟨_, exec_keyWait_of_latch_none x hk⟩
    | some k => exact .inl ⟨_, exec_keyWait_of_latch_some x hk⟩
  | draw x y n =>
    cases hr : memReadMany s (memOperand s) n.val with
    | ok rows => exact .inl ⟨_, exec_draw_of_ok hr⟩
    | error e =>
      exact .inr ⟨_, exec_draw_of_error hr, faultAddress_toFault _ _ e, faultWord_toFault _ _ e,
        faultKind_of_memReadMany_error hr _ _⟩
  | loadBytes x =>
    cases hr : memReadMany s (memOperand s) (x.val + 1) with
    | ok us => exact .inl ⟨_, exec_loadBytes_of_ok hr⟩
    | error e =>
      exact .inr ⟨_, exec_loadBytes_of_error hr, faultAddress_toFault _ _ e, faultWord_toFault _ _ e,
        faultKind_of_memReadMany_error hr _ _⟩
  | storeBcd x => exact storeAtI_goes_on_or_faults (.storeBcd x) (bcdDigits (s.reg x)) s rfl
  | storeBytes x => exact storeAtI_goes_on_or_faults (.storeBytes x) (s.regsUpTo x) s rfl
  | _ => exact .inl ⟨_, rfl⟩

theorem exec_ne_refused (i : Instr) (s : State) (r : Refusal) : exec i s ≠ .refused r := by
  intro h
  obtain ⟨t, ht⟩ | ⟨f, hf, -⟩ := exec_goes_on_or_faults i s
  · rw [ht] at h; cases h
  · rw [hf] at h; cases h

theorem raisedBy_of_exec_eq_fault {i : Instr} {s : State} {f : Fault} (h : exec i s = .fault f) : RaisedBy i s f := by
  obtain ⟨t, ht⟩ | ⟨g, hg, hraised⟩ := exec_goes_on_or_faults i s
  · rw [ht] at h; cases h
  · rw [hg] at h; cases h; exact hraised

/-! ### The obligations about faults and refusals -/

/-- Settles O9: no phase of a running step refuses, because no instruction does. -/
theorem onlyAFaultedBlockRefuses : Obligations.OnlyAFaultedBlockRefuses := by
  refine ⟨exec_ne_refused, fun s r => ⟨fun h => ?_, ?_⟩⟩
  · cases hs : s.status with
    | faulted f =>
      rw [step_of_faulted hs] at h
      cases h
      exact ⟨f, rfl, rfl⟩
    | running =>
      obtain ⟨f, -, hstep⟩ | ⟨w, -, hstep⟩ | ⟨w, i, -, -, hstep⟩ := step_cases hs
      · rw [hstep] at h; cases h
      · rw [hstep] at h; cases h
      · exact absurd (hstep.symm.trans h) (exec_ne_refused i _ r)
  · rintro ⟨f, hs, rfl⟩
    exact step_of_faulted hs

/-- Settles O10, by the phase that faults; after the fetch, `pc` less the advance is the address, and the instruction
encodes to the word fetched. -/
theorem faultRecordNamesTheInstruction : Obligations.FaultRecordNamesTheInstruction := by
  intro s f hrun h
  obtain ⟨g, hfetch, hstep⟩ | ⟨w, hfetch, hstep⟩ | ⟨w, i, hfetch, hdecode, hstep⟩ := step_cases hrun
  · obtain rfl : g = f := Host.Outcome.fault.inj (hstep.symm.trans h)
    obtain ⟨e, rfl⟩ := fetch_error hfetch
    exact ⟨faultAddress_toFault _ _ e, .inl ⟨⟨_, hfetch⟩, faultWord_toFault _ _ e⟩⟩
  · obtain rfl := Host.Outcome.fault.inj (hstep.symm.trans h)
    exact ⟨rfl, .inr ⟨w, hfetch, rfl⟩⟩
  · obtain ⟨haddress, hword, -⟩ := raisedBy_of_exec_eq_fault (hstep.symm.trans h)
    refine ⟨haddress.trans (BitVec.add_sub_cancel s.pc 2), .inr ⟨w, hfetch, ?_⟩⟩
    rw [hword, (encode_of_decodeWord hdecode).1]

/-- Settles O11, by what each instruction can answer. -/
theorem faultKindsByInstruction : Obligations.FaultKindsByInstruction :=
  ⟨fun _ _ _ h => (raisedBy_of_exec_eq_fault h).2.2, rfl⟩

/-! ### Host calls -/

theorem hostCall_of_running (c : HostCall) {s : State} (h : s.status = .running) :
    hostCall c s = hostCallRunning c s := by
  rw [hostCall, h]

theorem hostCall_of_faulted (c : HostCall) {s : State} {f : Fault} (h : s.status = .faulted f) :
    hostCall c s = (s, .refused) := by
  rw [hostCall, h]

/-- Settles O13: the one check at every entry point. -/
theorem faultedBlockRefusesEveryCall : Obligations.FaultedBlockRefusesEveryCall := fun _ _ c => hostCall_of_faulted c

theorem runCalls_of_faulted (calls : List HostCall) {s : State} {f : Fault} (h : s.status = .faulted f) :
    runCalls calls s = s := by
  induction calls with
  | nil => rfl
  | cons c calls ih => rw [runCalls, hostCall_of_faulted c h, ih]

theorem hostCall_step_of_next {s t : State} (hrun : s.status = .running) (h : step s = .next t) :
    hostCall .step s = (t, .ok) := by
  rw [hostCall_of_running _ hrun, hostCallRunning, hostStep, h]

theorem hostCall_step_of_fault {s : State} {f : Fault} (hrun : s.status = .running) (h : step s = .fault f) :
    hostCall .step s = (s.takeFault f, .fault f) := by
  rw [hostCall_of_running _ hrun, hostCallRunning, hostStep, h]

theorem takeFault_status (s : State) (f : Fault) : (s.takeFault f).status = .faulted f := rfl

/-- Settles O12: the fault taken makes the status faulted, in which every later call is refused. -/
theorem faultIsTakenReturnedAndTerminal : Obligations.FaultIsTakenReturnedAndTerminal := by
  refine ⟨fun s f hrun h => ?_, fun s t => hostCall_step_of_next⟩
  rw [hostCall_step_of_fault hrun h]
  exact ⟨rfl, takeFault_status s f, fun calls => runCalls_of_faulted calls (takeFault_status s f)⟩

/-! ### The calls that are no step -/

/-- The parts of the state that a host call other than `step()` may write (60_exceptions.md R107 to R115). -/
def partsWrittenByCall : HostCall → List Part
  | .tick => [.dt, .st]
  | .keydown _ | .keyup _ => [.pressed, .latch]
  | .pollAndClearDirty => [.dirty]
  | .step | .load _ _ | .display => []

theorem tick_frame (s : State) : Frame s (tick s) [] [.dt, .st] :=
  ((Frame.withDt s _).mono (List.nil_subset _) (by simp)).trans ((Frame.withSt _ _).mono (List.nil_subset _) (by simp))

theorem Frame.setPressed_withLatch (s : State) (k : KeyId) (b : Bool) (l : Option KeyId) :
    Frame s ((s.setPressed k b).withLatch l) [] [.pressed, .latch] :=
  ((Frame.withPressed s _).mono (List.nil_subset _) (by simp)).trans
    ((Frame.withLatch _ l).mono (List.nil_subset _) (by simp))

theorem keydown_of_key (k : KeyId) (s : State) : keydown k.val s = (s.setPressed k true).withLatch (some k) :=
  dif_pos k.isLt

theorem keydown_of_no_key {code : Nat} (h : 15 < code) (s : State) : keydown code s = s := dif_neg (by omega)

theorem keyup_of_latched {k : KeyId} {s : State} (h : s.latch = some k) :
    keyup k.val s = (s.setPressed k false).withLatch none := by
  rw [keyup, dif_pos k.isLt]
  exact if_pos h

/-- A key that is not the latched one leaves the latch as it is. -/
theorem keyup_of_not_latched {k : KeyId} {s : State} (h : s.latch ≠ some k) :
    keyup k.val s = (s.setPressed k false).withLatch s.latch := by
  rw [keyup, dif_pos k.isLt]
  exact if_neg h

theorem keyup_of_no_key {code : Nat} (h : 15 < code) (s : State) : keyup code s = s := dif_neg (by omega)

theorem keydown_frame (code : Nat) (s : State) : Frame s (keydown code s) [] [.pressed, .latch] := by
  by_cases hkey : code < 16
  · rw [keydown_of_key ⟨code, hkey⟩ s]
    exact Frame.setPressed_withLatch s _ _ _
  · rw [keydown_of_no_key (by omega)]
    exact Frame.refl s _ _

theorem keyup_frame (code : Nat) (s : State) : Frame s (keyup code s) [] [.pressed, .latch] := by
  by_cases hkey : code < 16
  · by_cases hlatch : s.latch = some ⟨code, hkey⟩
    · rw [keyup_of_latched (k := ⟨code, hkey⟩) hlatch]
      exact Frame.setPressed_withLatch s _ _ _
    · rw [keyup_of_not_latched (k := ⟨code, hkey⟩) hlatch]
      exact Frame.setPressed_withLatch s _ _ _
  · rw [keyup_of_no_key (by omega)]
    exact Frame.refl s _ _

theorem load_of_fits {bytes : List Byte} {address : Nat} (s : State) (h : 0x200 ≤ address)
    (h' : address + bytes.length ≤ 0xEA0) :
    load bytes address s = (s.withMem (s.mem.setMany address bytes), .ok) :=
  if_neg (by simp only [Config.ramBase, Config.ramEnd]; omega)

theorem load_of_outside {bytes : List Byte} {address : Nat} (s : State)
    (h : address < 0x200 ∨ 0xEA0 < address + bytes.length) : load bytes address s = (s, .boundsViolation) :=
  if_pos h

theorem load_frame (bytes : List Byte) (address : Nat) (s : State) : Frame s (load bytes address s).1 [] [] := by
  by_cases hout : address < 0x200 ∨ 0xEA0 < address + bytes.length
  · rw [load_of_outside s hout]
    exact Frame.refl s _ _
  · rw [load_of_fits s (by omega) (by omega)]
    exact Frame.withMem s _

/-- What a host call other than `step()` leaves unchanged. -/
theorem hostCallRunning_frame {c : HostCall} (hc : c ≠ .step) (s : State) :
    Frame s (hostCallRunning c s).1 [] (partsWrittenByCall c) := by
  cases c with
  | step => exact absurd rfl hc
  | tick => exact tick_frame s
  | load bytes address => exact load_frame bytes address s
  | keydown code => exact keydown_frame code s
  | keyup code => exact keyup_frame code s
  | display => exact Frame.refl s _ _
  | pollAndClearDirty => exact Frame.withDirty s false

theorem countDown_toNat (b : Byte) : (countDown b).toNat = b.toNat - 1 := by
  unfold countDown
  split
  · next h => rw [h]; rfl
  · next h => bv_omega

/-- Settles O56: each timer counts down on its own. -/
theorem tickCountsDown : Obligations.TickCountsDown := by
  refine ⟨fun s hrun => ?_, fun s f => hostCall_of_faulted .tick⟩
  exact ⟨tick s, hostCall_of_running .tick hrun, countDown_toNat s.dt, countDown_toNat s.st, tick_frame s,
    bytesSame_of_mem_eq rfl⟩

/-- Settles O57, by whether the code is a key and, for a key up, whether it is the latched one. -/
theorem keyEventsPressAndLatch : Obligations.KeyEventsPressAndLatch := by
  refine ⟨fun s code hrun hcode => ?noKey, fun s k hrun => ?down, fun s k hrun => ?up⟩
  case noKey =>
    rw [hostCall_of_running _ hrun, hostCall_of_running _ hrun, hostCallRunning, hostCallRunning,
      keydown_of_no_key hcode, keyup_of_no_key hcode]
    exact ⟨rfl, rfl⟩
  case down =>
    refine ⟨keydown k.val s, hostCall_of_running _ hrun, ?_⟩
    rw [keydown_of_key]
    refine ⟨?_, rfl, fun j hj => ?_, Frame.setPressed_withLatch s k _ _, bytesSame_of_mem_eq rfl⟩
    · exact (State.isPressed_setPressed s k k true).trans (if_pos rfl)
    · exact (State.isPressed_setPressed s j k true).trans (if_neg hj)
  case up =>
    have hreleased : (s.setPressed k false).isPressed k = false :=
      (State.isPressed_setPressed s k k false).trans (if_pos rfl)
    have hothers : ∀ j, j ≠ k → (s.setPressed k false).isPressed j = s.isPressed j := fun j hj =>
      (State.isPressed_setPressed s j k false).trans (if_neg hj)
    refine ⟨keyup k.val s, hostCall_of_running _ hrun, ?_⟩
    by_cases hlatch : s.latch = some k
    · rw [keyup_of_latched hlatch]
      exact ⟨hreleased, fun _ => rfl, fun h => absurd hlatch h, hothers, Frame.setPressed_withLatch s k _ _,
        bytesSame_of_mem_eq rfl⟩
    · rw [keyup_of_not_latched hlatch]
      exact ⟨hreleased, fun h => absurd h hlatch, fun _ => rfl, hothers, Frame.setPressed_withLatch s k _ _,
        bytesSame_of_mem_eq rfl⟩

/-- Settles O58: a program that fits is one run of writes in RAM, and any other call returns the state it got. -/
theorem loadCopiesAllOrNothing : Obligations.LoadCopiesAllOrNothing := by
  intro s bytes address hrun
  rw [hostCall_of_running _ hrun, hostCallRunning]
  refine ⟨fun hlo hhi => ?_, load_of_outside s⟩
  refine ⟨_, load_of_fits s hlo hhi, fun k hk => ?_, Frame.withMem s _, bytesSameOutside_of_setMany rfl⟩
  rw [memRead_ram _ (by omega) (by omega), State.withMem_mem, Memory.get_setMany, dif_pos (by omega)]
  simp

/-- Settles O18: the program lies where `pc` starts. -/
theorem loadedProgramIsFetchedFirst : Obligations.LoadedProgramIsFetchedFirst := by
  intro p hi lo rest hlen
  have hfits : 0x200 + (hi :: lo :: rest).length ≤ 0xEA0 := by
    simp only [List.length_cons]
    omega
  have hload := load_of_fits (State.construct p) (Nat.le_refl 0x200) hfits
  exact ⟨_, _, (hostCall_of_running _ (State.construct_status p)).trans hload, fetch_of_setMany rfl rfl rfl,
    wordOfBytes_toNat hi lo⟩

/-- Settles O59: the view lists the framebuffer bytes in order, and the poll writes `dirty` only. -/
theorem displayAndPoll : Obligations.DisplayAndPoll := by
  intro s hrun
  rw [hostCall_of_running _ hrun, hostCall_of_running _ hrun]
  refine ⟨⟨display s, rfl, ?_, fun k hk => ?_⟩, ⟨_, rfl, rfl, Frame.withDirty s false, bytesSame_of_mem_eq rfl⟩⟩
  · rw [display, List.length_map, List.length_range]
  · have hk' : k < 256 := by simpa [display] using hk
    rw [memRead_fb s k hk']
    simp [display]

end Sys2Proof.Machine
end

section
/-! SUPPORT. Where an instruction goes on (10_state.md R6 to R18): what each one that can fault has then done, what
every instruction leaves unchanged, where it leaves `pc` and `dirty`, and that it reads neither `dirty` nor `ST`. -/

namespace Sys2Proof.Machine

/-! ### What an instruction that can fault has done when it goes on -/

theorem exec_ret_eq_next {s t : State} (h : exec .ret s = .next t) :
    ∃ a rest, s.stack = a :: rest ∧ t = (s.withStack rest).withPc a := by
  cases hs : s.stack with
  | nil => rw [exec_ret_of_stack_eq_nil hs] at h; cases h
  | cons a rest => rw [exec_ret_of_stack_eq_cons hs] at h; cases h; exact ⟨a, rest, rfl, rfl⟩

theorem exec_call_eq_next {nnn : Addr12} {s t : State} (h : exec (.call nnn) s = .next t) :
    s.depth < 16 ∧ t = (s.push s.pc).withPc (addrOperand nnn) := by
  by_cases hroom : s.depth < 16
  · rw [exec_call_of_depth_lt nnn hroom] at h; cases h; exact ⟨hroom, rfl⟩
  · rw [exec_call_of_depth_ge nnn (Nat.not_lt.1 hroom)] at h; cases h

theorem exec_loadGlyph_eq_next {x : RegId} {s t : State} (h : exec (.loadGlyph x) s = .next t) :
    ∃ d : Fin 16, t = s.withI (BitVec.ofNat 16 (5 * d.val)) := by
  cases hd : index16 (s.reg x) with
  | none => rw [exec_loadGlyph_of_no_index hd] at h; cases h
  | some d => rw [exec_loadGlyph_of_index hd] at h; cases h; exact ⟨d, rfl⟩

theorem exec_skipIfKeyPressed_eq_next {x : RegId} {s t : State} (h : exec (.skipIfKeyPressed x) s = .next t) :
    ∃ k : KeyId, k.val = (s.reg x).toNat ∧ t = s.skipIf (s.isPressed k) := by
  cases hk : index16 (s.reg x) with
  | none => rw [exec_skipIfKeyPressed_of_no_index hk] at h; cases h
  | some k =>
    rw [exec_skipIfKeyPressed_of_index hk] at h; cases h; exact ⟨k, (index16_eq_some_iff _ _).1 hk, rfl⟩

theorem exec_skipIfKeyNotPressed_eq_next {x : RegId} {s t : State} (h : exec (.skipIfKeyNotPressed x) s = .next t) :
    ∃ k : KeyId, k.val = (s.reg x).toNat ∧ t = s.skipIf (!s.isPressed k) := by
  cases hk : index16 (s.reg x) with
  | none => rw [exec_skipIfKeyNotPressed_of_no_index hk] at h; cases h
  | some k =>
    rw [exec_skipIfKeyNotPressed_of_index hk] at h; cases h; exact ⟨k, (index16_eq_some_iff _ _).1 hk, rfl⟩

theorem exec_keyWait_eq_next {x : RegId} {s t : State} (h : exec (.keyWait x) s = .next t) :
    (s.latch = none ∧ t = s.rewind) ∨
      ∃ k, s.latch = some k ∧ t = (s.withLatch none).setReg x (BitVec.ofNat 8 k.val) := by
  cases hk : s.latch with
  | none => rw [exec_keyWait_of_latch_none x hk] at h; cases h; exact .inl ⟨rfl, rfl⟩
  | some k => rw [exec_keyWait_of_latch_some x hk] at h; cases h; exact .inr ⟨k, rfl, rfl⟩

theorem exec_loadBytes_eq_next {x : RegId} {s t : State} (h : exec (.loadBytes x) s = .next t) :
    ∃ us : List Byte, us.length = x.val + 1 ∧ t = s.setRegs 0 us := by
  cases hr : memReadMany s (memOperand s) (x.val + 1) with
  | ok us =>
    rw [exec_loadBytes_of_ok hr] at h; cases h; exact ⟨us, ((memReadMany_ok_iff s _ _ us).1 hr).1, rfl⟩
  | error e => rw [exec_loadBytes_of_error hr] at h; cases h

theorem exec_draw_eq_next {x y : RegId} {n : Fin 16} {s t : State} (h : exec (.draw x y n) s = .next t) :
    ∃ rows : List Byte, t = (fbDraw s (s.reg x) (s.reg y) rows).2.setReg vf
      (collisionFlag (fbDraw s (s.reg x) (s.reg y) rows).1) := by
  cases hr : memReadMany s (memOperand s) n.val with
  | ok rows => rw [exec_draw_of_ok hr] at h; cases h; exact ⟨rows, rfl⟩
  | error e => rw [exec_draw_of_error hr] at h; cases h

/-- What a store of at least one byte at the memory operand has done when it goes on. -/
theorem storeAtI_eq_next {i : Instr} {us : List Byte} {s t : State} (hne : us ≠ []) (h : storeAtI i us s = .next t) :
    (∀ k, k < us.length → stored (memOperand s + k) = true) ∧
      t = (s.withMem (s.mem.setMany (memOperand s) us)).withDirty (s.dirty || decide (0xF00 ≤ memOperand s)) := by
  have hempty : us.isEmpty = false := List.isEmpty_eq_false_iff.2 hne
  obtain ⟨hstored, rfl⟩ := (storeAtI_next_iff i us s t).1 h
  refine ⟨hstored, ?_⟩
  rw [hempty]
  rfl

theorem bcdDigits_ne_nil (b : Byte) : bcdDigits b ≠ [] := List.cons_ne_nil _ _

theorem regsUpTo_ne_nil (s : State) (x : RegId) : s.regsUpTo x ≠ [] :=
  List.ne_nil_of_length_pos (by rw [State.length_regsUpTo]; omega)

/-! ### What every instruction leaves unchanged -/

/-- The frame of an instruction and the bytes it leaves as before (10_state.md, writers of each piece of state). -/
def KeepsTheRest (i : Instr) (s t : State) : Prop :=
  Frame s t (regsWritten i) (partsWritten i) ∧ BytesSameOutside s t (bytesWritten s i).1 (bytesWritten s i).2

/-- An instruction that leaves memory alone keeps the rest when its registers and parts do. -/
theorem keepsTheRest_of_mem_eq {i : Instr} {s t : State} (hframe : Frame s t (regsWritten i) (partsWritten i))
    (hmem : t.mem = s.mem) : KeepsTheRest i s t :=
  ⟨hframe, (bytesSame_of_mem_eq hmem).outside _ _⟩

theorem storeAtI_keepsTheRest {i : Instr} {us : List Byte} {s t : State} (h : storeAtI i us s = .next t) :
    Frame s t [] [.dirty] ∧ BytesSameOutside s t (memOperand s) us.length := by
  obtain ⟨-, rfl⟩ := (storeAtI_next_iff i us s t).1 h
  exact ⟨Frame.withMem_withDirty s _ _, bytesSameOutside_of_setMany rfl⟩

theorem exec_keepsTheRest {i : Instr} {s t : State} (h : exec i s = .next t) : KeepsTheRest i s t := by
  cases i with
  | setConst x _ | addConst x _ | setReg x _ | or x _ | and x _ | xor x _ | getDelay x =>
    cases h; exact keepsTheRest_of_mem_eq (Frame.setReg s x _) rfl
  | addReg x _ | sub x _ | shr x _ | subRev x _ | shl x _ =>
    cases h; exact keepsTheRest_of_mem_eq (Frame.setFlagged s x _ _) rfl
  | skipIfEqConst _ _ | skipIfNotEqConst _ _ | skipIfEqReg _ _ | skipIfNotEqReg _ _ =>
    cases h; exact keepsTheRest_of_mem_eq (Frame.skipIf s _) (State.skipIf_mem s _)
  | jump _ | jumpWithOffset _ => cases h; exact keepsTheRest_of_mem_eq (Frame.withPc s _) rfl
  | setDelay x => cases h; exact keepsTheRest_of_mem_eq (Frame.withDt s _) rfl
  | setSound x => cases h; exact keepsTheRest_of_mem_eq (Frame.withSt s _) rfl
  | setAddr _ => cases h; exact keepsTheRest_of_mem_eq (Frame.withI s _) rfl
  | addAddr x => cases h; exact keepsTheRest_of_mem_eq (Frame.setReg_withI s vf _ _) rfl
  | getRandom x _ => cases h; exact keepsTheRest_of_mem_eq (Frame.withDraws_setReg s _ x _) rfl
  | callRCA _ => cases h
  | clearScreen => cases h; exact ⟨Frame.fbClear s, bytesSameOutside_fbClear s⟩
  | ret =>
    obtain ⟨a, rest, -, rfl⟩ := exec_ret_eq_next h
    exact keepsTheRest_of_mem_eq (Frame.withStack_withPc s rest a) rfl
  | call nnn =>
    obtain ⟨-, rfl⟩ := exec_call_eq_next h
    exact keepsTheRest_of_mem_eq (Frame.withStack_withPc s _ _) rfl
  | loadGlyph x =>
    obtain ⟨d, rfl⟩ := exec_loadGlyph_eq_next h
    exact keepsTheRest_of_mem_eq (Frame.withI s _) rfl
  | skipIfKeyPressed x =>
    obtain ⟨k, -, rfl⟩ := exec_skipIfKeyPressed_eq_next h
    exact keepsTheRest_of_mem_eq (Frame.skipIf s _) (State.skipIf_mem s _)
  | skipIfKeyNotPressed x =>
    obtain ⟨k, -, rfl⟩ := exec_skipIfKeyNotPressed_eq_next h
    exact keepsTheRest_of_mem_eq (Frame.skipIf s _) (State.skipIf_mem s _)
  | keyWait x =>
    obtain ⟨-, rfl⟩ | ⟨k, -, rfl⟩ := exec_keyWait_eq_next h
    · exact keepsTheRest_of_mem_eq ((Frame.withPc s _).mono (List.nil_subset _) (by simp [partsWritten])) rfl
    · exact keepsTheRest_of_mem_eq
        ((Frame.withLatch_setReg s none x _).mono (List.Subset.refl _) (by simp [partsWritten])) rfl
  | loadBytes x =>
    obtain ⟨us, hlen, rfl⟩ := exec_loadBytes_eq_next h
    exact keepsTheRest_of_mem_eq (Frame.setRegs s x us hlen) (State.setRegs_mem s 0 us)
  | storeBcd x => exact storeAtI_keepsTheRest h
  | storeBytes x =>
    have hstore := storeAtI_keepsTheRest h
    rwa [State.length_regsUpTo] at hstore
  | draw x y n =>
    obtain ⟨rows, rfl⟩ := exec_draw_eq_next h
    exact ⟨Frame.fbDraw_setReg s _ _ rows _, bytesSameOutside_fbDraw_setReg s _ _ rows _⟩

/-- Settles O25, by the one or two updates each instruction is made of. -/
theorem everyInstructionFrame : Obligations.EveryInstructionFrame := fun _ _ _ h => exec_keepsTheRest h

/-- A part that the instruction does not write is the same after it. -/
theorem part_same_of_exec {i : Instr} {s t : State} (h : exec i s = .next t) (p : Part) (hp : p ∉ partsWritten i) :
    p.Same s t :=
  (exec_keepsTheRest h).1.parts p hp

/-! ### Where an instruction leaves `pc` -/

theorem exec_pcAfter {i : Instr} {s t : State} (h : exec i s = .next t) : PcAfter s t i := by
  cases i with
  | jump nnn => cases h; exact addrOperand_toNat nnn
  | jumpWithOffset nnn => cases h; exact addrOperand_add_byte_toNat nnn (s.reg 0)
  | call nnn =>
    obtain ⟨-, rfl⟩ := exec_call_eq_next h
    exact addrOperand_toNat nnn
  | ret =>
    obtain ⟨a, rest, hs, rfl⟩ := exec_ret_eq_next h
    exact congrArg List.head? hs
  | skipIfEqConst x nn => cases h; simp [PcAfter, State.skipIf_pc, constOperand]
  | skipIfNotEqConst x nn => cases h; simp [PcAfter, State.skipIf_pc, constOperand]
  | skipIfEqReg x y => cases h; simp [PcAfter, State.skipIf_pc, regOperand]
  | skipIfNotEqReg x y => cases h; simp [PcAfter, State.skipIf_pc, regOperand]
  | skipIfKeyPressed x =>
    obtain ⟨k, hk, rfl⟩ := exec_skipIfKeyPressed_eq_next h
    exact ⟨k, hk, State.skipIf_pc s _⟩
  | skipIfKeyNotPressed x =>
    obtain ⟨k, hk, rfl⟩ := exec_skipIfKeyNotPressed_eq_next h
    exact ⟨k, hk, by cases hp : s.isPressed k <;> simp [State.skipIf_pc]⟩
  | keyWait x =>
    obtain ⟨hlatch, rfl⟩ | ⟨k, hlatch, rfl⟩ := exec_keyWait_eq_next h
    · exact (if_pos hlatch).symm
    · exact (if_neg (by simp [hlatch])).symm
  | callRCA nnn => cases h
  | _ => exact part_same_of_exec h .pc (by simp [partsWritten])

/-- Settles O26: the step executes with `pc` advanced, and the other calls have frames without `pc`. -/
theorem pcIsWrittenByTheseEventsOnly : Obligations.PcIsWrittenByTheseEventsOnly := by
  refine ⟨State.construct_pc, fun s t w i hrun hw hi hstep => ?_, fun c s hrun hc => ?_⟩
  · rw [step_of_decode hrun hw hi] at hstep
    exact exec_pcAfter hstep
  · rw [hostCall_of_running c hrun]
    exact (hostCallRunning_frame hc s).parts .pc (by cases c <;> simp [partsWrittenByCall])

/-! ### Where an instruction leaves `dirty` -/

/-- Settles O27: the display instructions set `dirty`, a store sets it in the framebuffer, and the other frames are
without it. -/
theorem dirtyIsSetByWritesAndClearedByPollOnly : Obligations.DirtyIsSetByWritesAndClearedByPollOnly := by
  refine ⟨fun i s t h => ?_, fun c s hrun hc hpoll => ?_, fun s hrun => hostCall_of_running _ hrun⟩
  · cases i with
    | clearScreen => cases h; exact (Bool.or_true _).symm
    | draw x y n =>
      obtain ⟨rows, rfl⟩ := exec_draw_eq_next h
      exact (Bool.or_true _).symm
    | storeBcd x =>
      obtain ⟨-, rfl⟩ := storeAtI_eq_next (bcdDigits_ne_nil _) h
      rfl
    | storeBytes x =>
      obtain ⟨-, rfl⟩ := storeAtI_eq_next (regsUpTo_ne_nil s x) h
      rfl
    | _ =>
      have hsame : t.dirty = s.dirty := part_same_of_exec h .dirty (by simp [partsWritten])
      exact hsame.trans (Bool.or_false _).symm
  · rw [hostCall_of_running c hrun]
    refine (hostCallRunning_frame hc s).parts .dirty ?_
    cases c with
    | pollAndClearDirty => exact absurd rfl hpoll
    | _ => simp [partsWrittenByCall]

/-! ### `dirty` and `ST` are not read -/

/-- The same answer, up to the `dirty` and the `ST` of a next state. -/
def SameButDirtyAndSt : Result → Result → Prop
  | .next t, .next t' => (t'.withDirty t.dirty).withSt t.st = t
  | .fault f, .fault f' => f = f'
  | _, _ => False

theorem sameButDirtyAndSt_next {t t' : State} (h : (t'.withDirty t.dirty).withSt t.st = t) :
    SameButDirtyAndSt (.next t) (.next t') := h

theorem setRegs_withDirty_withSt (s : State) (b : Bool) (u : Byte) (i : Nat) (us : List Byte) :
    ((s.withDirty b).withSt u).setRegs i us = ((s.setRegs i us).withDirty b).withSt u := by
  induction us generalizing s i with
  | nil => rfl
  | cons v us ih =>
    unfold State.setRegs
    split
    · exact ih (s.setReg _ v) (i + 1)
    · rfl

section
variable (s : State) (b : Bool) (u : Byte)

theorem skipIf_sameButDirtyAndSt (c : Bool) :
    SameButDirtyAndSt (.next (s.skipIf c)) (.next (((s.withDirty b).withSt u).skipIf c)) := by
  cases c <;> exact sameButDirtyAndSt_next rfl

theorem storeAtI_sameButDirtyAndSt (i : Instr) (us : List Byte) :
    SameButDirtyAndSt (storeAtI i us s) (storeAtI i us ((s.withDirty b).withSt u)) := by
  cases hw : memWriteMany s (memOperand s) us with
  | error e =>
    rw [(storeAtI_fault_iff i us s _).2 ⟨e, hw, rfl⟩,
      (storeAtI_fault_iff i us ((s.withDirty b).withSt u) _).2 ⟨e, memWriteMany_error_congr _ hw, rfl⟩]
    rfl
  | ok t =>
    obtain ⟨hstored, -⟩ := (memWriteMany_ok_iff us s t _).1 hw
    rw [(storeAtI_next_iff i us s _).2 ⟨hstored, rfl⟩,
      (storeAtI_next_iff i us ((s.withDirty b).withSt u) _).2 ⟨hstored, rfl⟩]
    exact sameButDirtyAndSt_next rfl

theorem memReadMany_withDirty_withSt (a n : Nat) :
    memReadMany ((s.withDirty b).withSt u) a n = memReadMany s a n :=
  memReadMany_of_mem_eq (s := s) (t := (s.withDirty b).withSt u) rfl a n

theorem exec_sameButDirtyAndSt (i : Instr) : SameButDirtyAndSt (exec i s) (exec i ((s.withDirty b).withSt u)) := by
  cases i with
  | skipIfEqConst _ _ | skipIfNotEqConst _ _ | skipIfEqReg _ _ | skipIfNotEqReg _ _ =>
    exact skipIf_sameButDirtyAndSt s b u _
  | storeBcd x => exact storeAtI_sameButDirtyAndSt s b u (.storeBcd x) (bcdDigits (s.reg x))
  | storeBytes x => exact storeAtI_sameButDirtyAndSt s b u (.storeBytes x) (s.regsUpTo x)
  | callRCA _ => rfl
  | ret =>
    cases hs : s.stack with
    | nil => rw [exec_ret_of_stack_eq_nil hs, exec_ret_of_stack_eq_nil (s := (s.withDirty b).withSt u) hs]; rfl
    | cons a rest =>
      rw [exec_ret_of_stack_eq_cons hs, exec_ret_of_stack_eq_cons (s := (s.withDirty b).withSt u) hs]
      exact sameButDirtyAndSt_next rfl
  | call nnn =>
    by_cases hroom : s.depth < 16
    · rw [exec_call_of_depth_lt nnn hroom, exec_call_of_depth_lt nnn (s := (s.withDirty b).withSt u) hroom]
      exact sameButDirtyAndSt_next rfl
    · have hfull := Nat.not_lt.1 hroom
      rw [exec_call_of_depth_ge nnn hfull, exec_call_of_depth_ge nnn (s := (s.withDirty b).withSt u) hfull]
      rfl
  | loadGlyph x =>
    cases hd : index16 (s.reg x) with
    | none =>
      rw [exec_loadGlyph_of_no_index hd, exec_loadGlyph_of_no_index (s := (s.withDirty b).withSt u) hd]; rfl
    | some d =>
      rw [exec_loadGlyph_of_index hd, exec_loadGlyph_of_index (s := (s.withDirty b).withSt u) hd]
      exact sameButDirtyAndSt_next rfl
  | skipIfKeyPressed x =>
    cases hk : index16 (s.reg x) with
    | none =>
      rw [exec_skipIfKeyPressed_of_no_index hk, exec_skipIfKeyPressed_of_no_index (s := (s.withDirty b).withSt u) hk]
      rfl
    | some k =>
      rw [exec_skipIfKeyPressed_of_index hk, exec_skipIfKeyPressed_of_index (s := (s.withDirty b).withSt u) hk]
      exact skipIf_sameButDirtyAndSt s b u _
  | skipIfKeyNotPressed x =>
    cases hk : index16 (s.reg x) with
    | none =>
      rw [exec_skipIfKeyNotPressed_of_no_index hk,
        exec_skipIfKeyNotPressed_of_no_index (s := (s.withDirty b).withSt u) hk]
      rfl
    | some k =>
      rw [exec_skipIfKeyNotPressed_of_index hk, exec_skipIfKeyNotPressed_of_index (s := (s.withDirty b).withSt u) hk]
      exact skipIf_sameButDirtyAndSt s b u _
  | keyWait x =>
    cases hk : s.latch with
    | none =>
      rw [exec_keyWait_of_latch_none x hk, exec_keyWait_of_latch_none x (s := (s.withDirty b).withSt u) hk]
      exact sameButDirtyAndSt_next rfl
    | some k =>
      rw [exec_keyWait_of_latch_some x hk, exec_keyWait_of_latch_some x (s := (s.withDirty b).withSt u) hk]
      exact sameButDirtyAndSt_next rfl
  | loadBytes x =>
    have hsame := memReadMany_withDirty_withSt s b u (memOperand s) (x.val + 1)
    cases hr : memReadMany s (memOperand s) (x.val + 1) with
    | ok us =>
      rw [exec_loadBytes_of_ok hr, exec_loadBytes_of_ok (hsame.trans hr), setRegs_withDirty_withSt]
      exact sameButDirtyAndSt_next rfl
    | error e => rw [exec_loadBytes_of_error hr, exec_loadBytes_of_error (hsame.trans hr)]; rfl
  | draw x y n =>
    have hsame := memReadMany_withDirty_withSt s b u (memOperand s) n.val
    cases hr : memReadMany s (memOperand s) n.val with
    | ok rows =>
      rw [exec_draw_of_ok hr, exec_draw_of_ok (hsame.trans hr)]
      exact sameButDirtyAndSt_next rfl
    | error e => rw [exec_draw_of_error hr, exec_draw_of_error (hsame.trans hr)]; rfl
  | _ => exact sameButDirtyAndSt_next rfl

end

/-- Settles O28: each instruction's condition and values come from the parts that the two states share. -/
theorem dirtyAndSoundTimerAreInvisible : Obligations.DirtyAndSoundTimerAreInvisible := fun i s b u =>
  exec_sameButDirtyAndSt s b u i

end Sys2Proof.Machine
end

section
/-! SUPPORT. Construction and the invariant (10_state.md R9 to R22): it holds at construction, every instruction keeps
each of its clauses, and so do the steps and the host calls, and every run of them that no fault ends. -/

namespace Sys2Proof.Machine

/-! ### Construction -/

theorem memRead_construct_ram (p : Config.Init) (k : Fin Config.ramSize) :
    memRead (State.construct p) (0x200 + k.val) = .ok (p.ram k) := by
  have hk : k.val < 3232 := k.isLt
  rw [memRead_ram _ (by omega) (by omega), State.construct_mem, initialMemory_get_ram]

theorem memRead_construct_fb (p : Config.Init) (k : Fin Config.fbSize) :
    memRead (State.construct p) (0xF00 + k.val) = .ok (p.fb k) := by
  rw [memRead_fb _ _ k.isLt, State.construct_mem]
  exact congrArg Except.ok (initialMemory_get_fb p k)

/-- Settles O19, piece by piece. -/
theorem constructionValues : Obligations.ConstructionValues := fun p =>
  ⟨State.construct_pc p, rfl, State.construct_latch p, State.construct_status p, State.construct_isPressed p,
    State.construct_reg p, addrOperand_toNat p.i, State.construct_dt p, State.construct_st p, State.construct_dirty p,
    memRead_construct_ram p, memRead_construct_fb p, fun _ => memRead_glyph _, fun _ => memRead_rom_zero _⟩

theorem construct_inv (p : Config.Init) : (State.construct p).Inv where
  memWf := initialMemory_wf p
  memStored := initialMemory_inStorage p
  iBound := lt_of_eq_of_lt (addrOperand_toNat p.i) p.i.isLt
  pcBound := by
    rw [State.construct_pc]
    decide
  depthBound := Nat.zero_le _
  stackBound := fun _ h => absurd h List.not_mem_nil
  latchDown := fun _ h => nomatch h

/-- Settles O21: no clause depends on what the open parameters are. -/
theorem constructionMeetsInvariant : Obligations.ConstructionMeetsInvariant := construct_inv

/-- Settles O20: reset is construction with every open parameter zero. -/
theorem resetMeetsInvariant : Obligations.ResetMeetsInvariant := by
  unfold Obligations.ResetMeetsInvariant
  rw [reset_eq_construct]
  exact construct_inv _

/-! ### Memory -/

theorem Memory.setMany_keeps (P : Memory → Prop) (hP : ∀ m a u, stored a = true → P m → P (m.set a u)) (us : List Byte)
    (m : Memory) (a : Nat) (ha : ∀ k, k < us.length → stored (a + k) = true) (h : P m) : P (m.setMany a us) := by
  induction us generalizing m a with
  | nil => exact h
  | cons u us ih =>
    refine ih _ _ (fun k hk => ?_) (hP m a u (ha 0 (Nat.succ_pos _)) h)
    rw [Nat.add_assoc, Nat.add_comm 1 k]
    exact ha (k + 1) (Nat.succ_lt_succ hk)

/-- What every write where there is storage keeps, every instruction keeps. -/
theorem exec_mem_keeps (P : Memory → Prop) (hP : ∀ m a u, stored a = true → P m → P (m.set a u)) {i : Instr}
    {s t : State} (h : exec i s = .next t) (hs : P s.mem) : P t.mem := by
  cases i with
  | clearScreen =>
    cases h
    change P s.mem.fbZero
    unfold Memory.fbZero
    exact Memory.setMany_keeps P hP _ _ _ (fun k hk => stored_fb k (by simpa using hk)) hs
  | draw x y n =>
    obtain ⟨rows, rfl⟩ := exec_draw_eq_next h
    exact blitRows_mem_keeps P (fun m k u hk => hP m _ u (stored_fb k hk)) _ _ rows (s.mem, false) 0 hs
  | storeBcd x =>
    obtain ⟨hstored, rfl⟩ := storeAtI_eq_next (bcdDigits_ne_nil _) h
    exact Memory.setMany_keeps P hP _ _ _ hstored hs
  | storeBytes x =>
    obtain ⟨hstored, rfl⟩ := storeAtI_eq_next (regsUpTo_ne_nil s x) h
    exact Memory.setMany_keeps P hP _ _ _ hstored hs
  | loadBytes x =>
    obtain ⟨us, -, rfl⟩ := exec_loadBytes_eq_next h
    rwa [State.setRegs_mem]
  | ret => obtain ⟨a, rest, -, rfl⟩ := exec_ret_eq_next h; exact hs
  | call nnn => obtain ⟨-, rfl⟩ := exec_call_eq_next h; exact hs
  | loadGlyph x => obtain ⟨d, rfl⟩ := exec_loadGlyph_eq_next h; exact hs
  | skipIfKeyPressed x => obtain ⟨k, -, rfl⟩ := exec_skipIfKeyPressed_eq_next h; rwa [State.skipIf_mem]
  | skipIfKeyNotPressed x => obtain ⟨k, -, rfl⟩ := exec_skipIfKeyNotPressed_eq_next h; rwa [State.skipIf_mem]
  | skipIfEqConst _ _ | skipIfNotEqConst _ _ | skipIfEqReg _ _ | skipIfNotEqReg _ _ =>
    cases h; rwa [State.skipIf_mem]
  | keyWait x => obtain ⟨-, rfl⟩ | ⟨k, -, rfl⟩ := exec_keyWait_eq_next h <;> exact hs
  | callRCA nnn => cases h
  | _ => cases h; exact hs

/-! ### Every instruction keeps the other clauses of the invariant -/

section
variable {i : Instr} {s t : State}

theorem exec_iBound (h : exec i s = .next t) (hs : s.i.toNat < 0x1000) : t.i.toNat < 0x1000 := by
  cases i with
  | setAddr nnn =>
    cases h
    exact lt_of_eq_of_lt (addrOperand_toNat nnn) nnn.isLt
  | addAddr x =>
    cases h
    exact lt_of_eq_of_lt (addrResult_toNat s.i (s.reg x)) (Nat.mod_lt _ (by decide))
  | loadGlyph x =>
    obtain ⟨d, rfl⟩ := exec_loadGlyph_eq_next h
    have hd := d.isLt
    exact lt_of_eq_of_lt (glyphAddress_toNat d) (by omega)
  | _ =>
    have hsame : t.i = s.i := part_same_of_exec h .i (by simp [partsWritten])
    rwa [hsame]

/-- After a fetch `pc` is at most `0x1000`, so a skip leaves it at most `0x1002`; only JumpWithOffset goes further, to
at most `0x10FE` (10_state.md R12). -/
theorem exec_pcBound (h : exec i s = .next t) (hlo : 2 ≤ s.pc.toNat) (hhi : s.pc.toNat ≤ 0x1000)
    (hstack : ∀ a ∈ s.stack, a.toNat ≤ 0x1000) : t.pc.toNat ≤ 0x10FE := by
  have hskip : (s.pc + 2).toNat ≤ 0x10FE := by bv_omega
  have hback : (s.pc - 2).toNat ≤ 0x10FE := by bv_omega
  have hstay : s.pc.toNat ≤ 0x10FE := by omega
  have hpc := exec_pcAfter h
  cases i with
  | jump nnn | call nnn =>
    have hpc : t.pc.toNat = nnn.toNat := hpc
    have := nnn.isLt
    omega
  | jumpWithOffset nnn =>
    have hpc : t.pc.toNat = nnn.toNat + (s.reg 0).toNat := hpc
    have := nnn.isLt
    have := (s.reg 0).isLt
    omega
  | ret =>
    have hpop := hstack t.pc (List.mem_of_mem_head? hpc)
    omega
  | skipIfEqConst _ _ | skipIfNotEqConst _ _ | skipIfEqReg _ _ | skipIfNotEqReg _ _ | keyWait _ =>
    rw [show t.pc = _ from hpc]
    split <;> assumption
  | skipIfKeyPressed _ | skipIfKeyNotPressed _ =>
    obtain ⟨k, -, hpc⟩ := hpc
    rw [hpc]
    split <;> assumption
  | _ => rwa [show t.pc = s.pc from hpc]

/-- A Call pushes a `pc` that a fetch has advanced, when there is room; no other instruction adds an entry. -/
theorem exec_stackBound (h : exec i s = .next t) (hpc : s.pc.toNat ≤ 0x1000) (hdepth : s.depth ≤ 16)
    (hstack : ∀ a ∈ s.stack, a.toNat ≤ 0x1000) : t.depth ≤ 16 ∧ ∀ a ∈ t.stack, a.toNat ≤ 0x1000 := by
  cases i with
  | ret =>
    obtain ⟨a, rest, hs, rfl⟩ := exec_ret_eq_next h
    rw [State.depth, hs, List.length_cons] at hdepth
    refine ⟨Nat.le_of_succ_le hdepth, fun b hb => hstack b ?_⟩
    rw [hs]
    exact List.mem_cons_of_mem a hb
  | call nnn =>
    obtain ⟨hroom, rfl⟩ := exec_call_eq_next h
    exact ⟨hroom, List.forall_mem_cons.2 ⟨hpc, hstack⟩⟩
  | _ =>
    have hsame : t.stack = s.stack := part_same_of_exec h .stack (by simp [partsWritten])
    rw [State.depth, hsame]
    exact ⟨hdepth, hstack⟩

theorem isPressed_of_pressed_eq (h : t.pressed = s.pressed) (k : KeyId) : t.isPressed k = s.isPressed k := by
  rw [State.isPressed, State.isPressed, h]

/-- KeyWait may clear the latch; no instruction latches or moves a key. -/
theorem exec_latchDown (h : exec i s = .next t) (hs : ∀ k, s.latch = some k → s.isPressed k = true) :
    ∀ k, t.latch = some k → t.isPressed k = true := by
  intro k hk
  have hpressed : t.pressed = s.pressed := part_same_of_exec h .pressed (by cases i <;> simp [partsWritten])
  rw [isPressed_of_pressed_eq hpressed]
  refine hs k ?_
  cases i with
  | keyWait x =>
    obtain ⟨-, rfl⟩ | ⟨j, -, rfl⟩ := exec_keyWait_eq_next h
    · exact hk
    · cases hk
  | _ =>
    have hsame : t.latch = s.latch := part_same_of_exec h .latch (by simp [partsWritten])
    rwa [← hsame]

/-- Every instruction keeps the invariant from a `pc` that a fetch has advanced. -/
theorem exec_keeps_inv (h : exec i s = .next t) (hlo : 2 ≤ s.pc.toNat) (hhi : s.pc.toNat ≤ 0x1000) (hs : s.Inv) :
    t.Inv := by
  obtain ⟨hdepth, hstack⟩ := exec_stackBound h hhi hs.depthBound hs.stackBound
  exact
    { memWf := exec_mem_keeps (fun m => m.wf = true) (fun m a u _ => m.wf_set a u) h hs.memWf
      memStored := exec_mem_keeps (fun m => m.inStorage = true) (fun m a u => m.inStorage_set a u) h hs.memStored
      iBound := exec_iBound h hs.iBound
      pcBound := exec_pcBound h hlo hhi hs.stackBound
      depthBound := hdepth
      stackBound := hstack
      latchDown := exec_latchDown h hs.latchDown }

end

/-! ### Steps and host calls -/

/-- A fetch needs a byte at `pc + 1`, unwrapped, so it advances `pc` to at most `0x1000` (decision D16). -/
theorem advance_pc_toNat_of_fetch {s : State} {w : Word} (h : fetch s = .ok w) :
    s.advance.pc.toNat = s.pc.toNat + 2 ∧ s.advance.pc.toNat ≤ 0x1000 := by
  have hregion := region_of_memReadWord_eq_ok ((fetch_ok_iff s w).1 h)
  have hadvance : s.advance.pc.toNat = (s.pc.toNat + 2) % 65536 := BitVec.toNat_add s.pc 2
  omega

theorem advance_inv {s : State} (hs : s.Inv) (hpc : s.advance.pc.toNat ≤ 0x1000) : s.advance.Inv :=
  { hs with pcBound := Nat.le_trans hpc (by decide) }

theorem step_keeps_inv {s t : State} (hs : s.Inv) (h : step s = .next t) : t.Inv := by
  obtain ⟨w, i, hw, -, hexec⟩ := exec_of_step_eq_next h
  obtain ⟨hadvance, hpc⟩ := advance_pc_toNat_of_fetch hw
  exact exec_keeps_inv hexec (by omega) hpc (advance_inv hs hpc)

/-- Settles O22: the fetch bounds the advanced `pc`, and every instruction keeps each clause from there. -/
theorem stepKeepsInvariant : Obligations.StepKeepsInvariant := fun _ _ => step_keeps_inv

/-- A call that writes neither `I`, `pc` nor the stack keeps the invariant when it keeps memory's clauses and the
latch's. -/
theorem inv_of_frame {s t : State} {parts : List Part} (hs : s.Inv) (hframe : Frame s t [] parts)
    (hparts : Part.i ∉ parts ∧ Part.pc ∉ parts ∧ Part.stack ∉ parts) (hwf : t.mem.wf = true)
    (hstored : t.mem.inStorage = true) (hlatch : ∀ k, t.latch = some k → t.isPressed k = true) : t.Inv := by
  obtain ⟨hi, hpc, hstack⟩ := hparts
  have hi : t.i = s.i := hframe.parts .i hi
  have hpc : t.pc = s.pc := hframe.parts .pc hpc
  have hstack : t.stack = s.stack := hframe.parts .stack hstack
  exact
    { memWf := hwf
      memStored := hstored
      iBound := hi ▸ hs.iBound
      pcBound := hpc ▸ hs.pcBound
      depthBound := by rw [State.depth, hstack]; exact hs.depthBound
      stackBound := by rw [hstack]; exact hs.stackBound
      latchDown := hlatch }

theorem load_keeps_inv (bytes : List Byte) (address : Nat) {s : State} (hs : s.Inv) : (load bytes address s).1.Inv := by
  by_cases hout : address < 0x200 ∨ 0xEA0 < address + bytes.length
  · rw [load_of_outside s hout]
    exact hs
  · rw [load_of_fits s (by omega) (by omega)]
    refine inv_of_frame hs (Frame.withMem s _) (by simp) (Memory.wf_setMany _ _ _ hs.memWf) ?_ hs.latchDown
    exact Memory.inStorage_setMany _ _ _ (fun k hk => (stored_iff _).2 (.inl ⟨by omega, by omega⟩)) hs.memStored

theorem keydown_keeps_inv (code : Nat) {s : State} (hs : s.Inv) : (keydown code s).Inv := by
  by_cases hkey : code < 16
  · rw [keydown_of_key ⟨code, hkey⟩ s]
    refine inv_of_frame hs (Frame.setPressed_withLatch s _ _ _) (by simp) hs.memWf hs.memStored fun k hk => ?_
    obtain rfl := Option.some.inj hk
    exact (State.isPressed_setPressed s _ _ true).trans (if_pos rfl)
  · rw [keydown_of_no_key (by omega)]
    exact hs

/-- A key up of the latched key clears the latch, and of another key leaves the latched one down. -/
theorem keyup_keeps_inv (code : Nat) {s : State} (hs : s.Inv) : (keyup code s).Inv := by
  by_cases hkey : code < 16
  · by_cases hlatch : s.latch = some ⟨code, hkey⟩
    · rw [keyup_of_latched (k := ⟨code, hkey⟩) hlatch]
      exact inv_of_frame hs (Frame.setPressed_withLatch s _ _ _) (by simp) hs.memWf hs.memStored fun k hk => nomatch hk
    · rw [keyup_of_not_latched (k := ⟨code, hkey⟩) hlatch]
      refine inv_of_frame hs (Frame.setPressed_withLatch s _ _ _) (by simp) hs.memWf hs.memStored fun k hk => ?_
      have hne : k ≠ ⟨code, hkey⟩ := by
        rintro rfl
        exact hlatch hk
      exact ((State.isPressed_setPressed s k _ false).trans (if_neg hne)).trans (hs.latchDown k hk)
  · rw [keyup_of_no_key (by omega)]
    exact hs

theorem hostStep_keeps_inv {s : State} (hs : s.Inv) (hrun : (hostStep s).1.status = .running) : (hostStep s).1.Inv := by
  unfold hostStep at hrun ⊢
  cases h : step s with
  | next t => exact step_keeps_inv hs h
  | fault f => rw [h] at hrun; cases hrun
  | refused r => exact hs

theorem hostCall_keeps_inv (c : HostCall) {s : State} (hs : s.Inv) (hrun : (hostCall c s).1.status = .running) :
    (hostCall c s).1.Inv := by
  cases hstatus : s.status with
  | faulted f =>
    rw [hostCall_of_faulted c hstatus]
    exact hs
  | running =>
    rw [hostCall_of_running c hstatus] at hrun ⊢
    cases c with
    | step => exact hostStep_keeps_inv hs hrun
    | tick => exact inv_of_frame hs (tick_frame s) (by simp) hs.memWf hs.memStored hs.latchDown
    | load bytes address => exact load_keeps_inv bytes address hs
    | keydown code => exact keydown_keeps_inv code hs
    | keyup code => exact keyup_keeps_inv code hs
    | display => exact hs
    | pollAndClearDirty =>
      exact inv_of_frame hs (Frame.withDirty s false) (by simp) hs.memWf hs.memStored hs.latchDown

/-- Settles O23, call by call: a step by O22, a load inside RAM, the keys by the latch, and the rest by their frames. -/
theorem hostCallsKeepInvariant : Obligations.HostCallsKeepInvariant := fun c _ => hostCall_keeps_inv c

/-! ### Safe runs -/

/-- No call before a safe run's end has faulted. -/
theorem safeRun_cons {c : HostCall} {calls : List HostCall} {s : State} (h : SafeRun (c :: calls) s) :
    (hostCall c s).1.status = .running := by
  cases hstatus : (hostCall c s).1.status with
  | running => rfl
  | faulted f =>
    have hend : runCalls (c :: calls) s = (hostCall c s).1 := runCalls_of_faulted calls hstatus
    rw [SafeRun, hend, hstatus] at h
    cases h

theorem safeRun_keeps_inv (calls : List HostCall) {s : State} (hs : s.Inv) (h : SafeRun calls s) :
    (runCalls calls s).Inv := by
  induction calls generalizing s with
  | nil => exact hs
  | cons c calls ih => exact ih (hostCall_keeps_inv c hs (safeRun_cons h)) h

/-- Settles O24: the invariant holds at construction, every call of a safe run keeps it, and it has the bounds. -/
theorem safeRunsStayInBounds : Obligations.SafeRunsStayInBounds := by
  intro p calls hsafe
  have hinv := safeRun_keeps_inv calls (construct_inv p) hsafe
  exact ⟨hinv.pcBound, Nat.le_of_lt_succ hinv.iBound, hinv.depthBound, hinv.stackBound⟩

end Sys2Proof.Machine
end
